-- ==== Sys2Proof/Word.lean ====
section
/-! DEFINITION. The words of the block: bytes and 16-bit register words (00_scope.md R5, R6). -/

namespace Sys2Proof

/-- A data byte, an address byte, or the decode-mode register: `DATA_W = ADDR_W = DM_W = 8` (R5). -/
abbrev Byte := BitVec 8

/-- A register word: `WORD_W = 16` (R5, 30_encoding.md R60). -/
abbrev Word := BitVec 16

end Sys2Proof
end

