-- ==== Sys2Proof/Config.lean ====
section
/-! DEFINITION. The parameters of 00_scope.md R5 that a configuration may change, with the defaults R5 gives,
and the values no source gives (93_implementation_defined.md U5, U6), which have no body. -/

namespace Sys2Proof

/-- `SCAN_LIMIT_MODE` (R5; 90_conflicts.md C1): which of the two readings of the scan-limit word is in force. -/
inductive ScanLimitMode where
  | clamped
  | literal
  deriving DecidableEq, Repr

/-- `SPLIT` (R5, 43_number_encoder.md R163): binary64 arithmetic, or another split a reader substitutes. -/
inductive SplitChoice where
  | split64
  | substituted
  deriving DecidableEq, Repr

/-- The configuration arguments of R5. `NDIG` and the word widths are fixed by the source and stand in the types. `intW` and
`precW` are `INT_W` and `PREC_W`: how wide an operand the two number commands may be spelled with. -/
structure Config where
  scanLimitMode    : ScanLimitMode
  split            : SplitChoice
  fracPad          : Bool
  defaultScanLimit : Byte
  defaultIntensity : Byte
  intW             : Nat
  precW            : Nat
  deriving DecidableEq, Repr

/-- R5's column of defaults. The choice of each is the spec's own (decisions D6, D10, D12 to D15; log entry 2). -/
def Config.standard : Config where
  scanLimitMode    := .clamped
  split            := .split64
  fracPad          := false
  defaultScanLimit := 8
  defaultIntensity := 255
  intW             := 32
  precW            := 8

/-- `SPLIT_HI(x, p)` (R5, R163, U5): the fraction value under `SPLIT64` when `p > 22`. "No default: any natural";
a free value (DESIGN CHOICE, log entry 13). -/
opaque Config.splitHi : BitVec 64 → Nat → Nat

/-- The fraction value of a `SPLIT` other than `SPLIT64` (R163, U6): "Only `fp` may differ between choices".
A free value (DESIGN CHOICE, log entry 13). -/
opaque Config.splitSubstituted : BitVec 64 → Nat → Nat

end Sys2Proof
end

