-- ==== Sys2Proof/Syntax.lean ====
section
/-! DEFINITION. The commands (30_encoding.md R64), the register words (R72 to R78) and the two forms in which the
host hands one to the block. One constructor of `Instr` per row of spec/opcode_table.json. -/

namespace Sys2Proof

/-- The closed glyph type of R64 and 42_digit_encoder.md R142. -/
inductive Glyph where
  | dash
  | e
  | h
  | l
  | p
  | blank
  deriving DecidableEq, Repr

/-- A pin identifier: an opaque value the block never interprets (10_state.md R21). -/
abbrev PinId := Nat

/-- The instructions: the 19 commands of R64, then the 14 register words of R72 to R78. How wide the two numbers of
SEND_NUMBER_INT and SEND_NUMBER_DEC may be is the configuration's (R5): `Instr.spellable`. -/
inductive Instr where
  | sendWord (w : Word)
  | bitmaskFor (ds : List Nat)
  | bitmaskForNum (n : Nat)
  | isBcd (d : Nat)
  | setBcd (m : Byte)
  | setRaw (m : Byte)
  | sendDigit (pos : Nat) (v : Byte) (dot : Bool)
  | sendChar (pos : Nat) (g : Glyph) (dot : Bool)
  | sendNumberInt (n : Int)
  | sendNumberDec (x : BitVec 64) (p : Nat)
  | setIntensity (v : Byte)
  | setScanLimit (sl : Byte)
  | setShutdown (b : Bool)
  | setDisplayTest (b : Bool)
  | sendNop (d : Byte)
  | clear
  | fillZeros
  | init (din clk load : PinId) (sl it : Byte)
  | fini
  | noop (data : Byte)
  | digit1 (data : Byte)
  | digit2 (data : Byte)
  | digit3 (data : Byte)
  | digit4 (data : Byte)
  | digit5 (data : Byte)
  | digit6 (data : Byte)
  | digit7 (data : Byte)
  | digit8 (data : Byte)
  | decodeMode (data : Byte)
  | intensity (data : Byte)
  | scanLimit (data : Byte)
  | shutdown (data : Byte)
  | displayTest (data : Byte)
  deriving DecidableEq, Repr

/-- The opcodes of R64 that spell a command; every other byte is reserved (R67). -/
inductive Opcode where
  | sendWord
  | bitmaskFor
  | bitmaskForNum
  | isBcd
  | setBcd
  | setRaw
  | sendDigit
  | sendChar
  | sendNumberInt
  | sendNumberDec
  | setIntensity
  | setScanLimit
  | setShutdown
  | setDisplayTest
  | sendNop
  | clear
  | fillZeros
  | init
  | fini
  deriving DecidableEq, Repr

/-- The operand types of R64. -/
inductive OperandType where
  | u8
  | u16
  | natural
  | naturals
  | boolean
  | glyph
  | integer
  | binary64
  | precision
  | pin
  deriving DecidableEq, Repr

/-- A typed operand value, as it stands after the opcode (R65). A value wider than its type cannot be spelled (R67): a
`u8` or `u16` has none, and the decoder refuses an `integer` wider than `INT_W` and a `precision` wider than `PREC_W`. -/
inductive Operand where
  | u8 (v : Byte)
  | u16 (v : Word)
  | natural (n : Nat)
  | naturals (ds : List Nat)
  | boolean (b : Bool)
  | glyph (g : Glyph)
  | integer (n : Int)
  | binary64 (x : BitVec 64)
  | precision (p : Nat)
  | pin (p : PinId)
  deriving DecidableEq, Repr

/-- What the host hands the block at one index of its program: a command of format CMD8 (an opcode byte, then typed
operands: R65), or a bare register word of format WORD16 (DESIGN CHOICE, log entry 7). -/
inductive PortUnit where
  | command (opcode : Byte) (operands : List Operand)
  | word (w : Word)
  deriving DecidableEq, Repr

end Sys2Proof
end

