-- ==== Sys2Proof/Machine/State.lean ====
section
/-! DEFINITION. The block's state (10_state.md), plain data, and its value at reset (R33, R240). -/

namespace Sys2Proof.Machine

/-- The three output lines (R24), named by their role; the identifiers the host gave them are `Pins`. -/
inductive Line where
  | din
  | clk
  | load
  deriving DecidableEq, Repr

/-- The level an output latch holds. Before INIT it is unspecified (R24, U1), which is a value of its own. -/
inductive Level where
  | unspecified
  | low
  | high
  deriving DecidableEq, Repr

/-- One value per line. -/
structure Lines (α : Type) where
  din  : α
  clk  : α
  load : α
  deriving DecidableEq, Repr

/-- `PIN_DIN`, `PIN_CLK` and `PIN_LOAD` (R21). -/
structure Pins where
  din  : PinId
  clk  : PinId
  load : PinId
  deriving DecidableEq, Repr

/-- `LC` (R20). -/
inductive Lifecycle where
  | uninit
  | live
  | destroyed
  deriving DecidableEq, Repr

/-- The causes of a ContractViolation (60_exceptions.md R221). -/
inductive Cause where
  | positionRange
  | digitIndexRange
  | nonfiniteOperand
  deriving DecidableEq, Repr

/-- `FINFO` (R25): the cause, the opcode of the command the host issued, and the offending operand as a number. -/
structure FaultInfo where
  cause   : Cause
  opcode  : Byte
  operand : Nat
  deriving DecidableEq, Repr

/-- One collaborator call, an entry of `PT` (R27): `(p, OUT)` or `(p, lvl)`. -/
inductive PinCall where
  | out (p : Line)
  | set (p : Line) (lvl : Bool)
  deriving DecidableEq, Repr

/-- What a query returns to the host (R30, 41_decode_mode.md R120, R121, R124). -/
inductive QueryResult where
  | mask (m : Byte)
  | bcd (b : Bool)
  deriving DecidableEq, Repr

/-- The state: the tuple of 10_state.md with `ci` (R29, R33) and the pin identifiers INIT is given (R21); then three
fields of the model's own: the parameters of R5, the host's command sequence, and the value last returned to the host. -/
structure State where
  lc     : Lifecycle
  dm     : Byte
  lines  : Lines Level
  dir    : Lines Bool
  fault  : Bool
  finfo  : Option FaultInfo
  wt     : List Word
  pt     : List PinCall
  ci     : Nat
  pins   : Option Pins
  cfg    : Config
  prog   : List PortUnit
  result : Option QueryResult
  deriving DecidableEq, Repr

/-- The reasons the machine stops with a fault. ContractViolation is not among them: R220 describes what it does, so it
is a next state with `FAULT = 1` (log entry 4). -/
inductive Fault where
  /-- A read of a line whose level is unspecified (R24: "a read of one faults"). Raised by `readLine` alone, which no
  command calls. Safe: the read has no answer. -/
  | lineUnspecified (p : Line)
  deriving DecidableEq, Repr

/-- The reasons a command has no step (R222) or the port gives none. -/
inductive Refusal where
  /-- An instruction the model has no meaning for. No arm of `exec` answers it. Safe. -/
  | notModelled (mnemonic : String)
  /-- R222 (1), raised by `step`: the opcode is reserved. Safe: the spec refuses it. -/
  | reservedOpcode (opcode : Byte)
  /-- R222 (3), raised by every meaning: `FAULT = 1`. Safe: the spec refuses it. -/
  | faulted
  /-- R222 (2), raised by every meaning: `LC` does not allow the command. Safe: the spec refuses it. -/
  | lifecycle (lc : Lifecycle)
  /-- Raised by `step`: the operands are not those of the opcode's row, so the unit spells no command (R64, R67; log
  entry 10). Safe. -/
  | malformedOperands (opcode : Byte)
  /-- Raised by `step`: a bare word whose address no row of the table names (R79; log entry 12). Safe: SEND_WORD
  carries the same word. -/
  | unnamedWord (w : Word)
  /-- Raised by `step`: the host has no command at index `ci` (log entry 11). Safe. -/
  | noCommand
  deriving DecidableEq, Repr

/-- The machine right after reset, the creation of an instance (R33's column "before INIT", R240). -/
def State.reset : State where
  lc     := .uninit
  dm     := 0xFF
  lines  := ⟨.unspecified, .unspecified, .unspecified⟩
  dir    := ⟨false, false, false⟩
  fault  := false
  finfo  := none
  wt     := []
  pt     := []
  ci     := 0
  pins   := none
  cfg    := Config.standard
  prog   := []
  result := none

end Sys2Proof.Machine
end

