-- ==== Sys2Proof/Machine/Flags.lean ====
section
/-! DEFINITION. The block's only flag, `FAULT`, with `FINFO` (10_state.md R25, R30; 60_exceptions.md R221). -/

namespace Sys2Proof.Machine

/-- R221's code column. -/
def causeCode : Cause → Nat
  | .positionRange    => 1
  | .digitIndexRange  => 2
  | .nonfiniteOperand => 3

/-- `FAULT <- 1; FINFO <- info` (R220). No operation clears either. -/
def setFault (info : FaultInfo) (s : State) : State :=
  { s with fault := true, finfo := some info }

end Sys2Proof.Machine
end

