-- ==== Sys2Proof/Decode.lean ====
section
/-! DEFINITION. Decoding what stands on the command port, and encoding. Two formats (30_encoding.md): CMD8, an opcode
byte followed by typed operands (R64, R65), and WORD16, a register word (R60, R72 to R78). Decoding is total: every unit
gives an instruction or an error that says why not. -/

namespace Sys2Proof

/-! ### The register word -/

/-- `w = (addr << 8) | data` (R60). -/
def regWord (addr data : Byte) : Word := addr ++ data

/-- `w[15:8]` (R60). -/
def wordAddr (w : Word) : Byte := w.extractLsb' 8 8

/-- `w[7:0]` (R60). -/
def wordData (w : Word) : Byte := w.extractLsb' 0 8

/-- A WORD16 row of the opcode table: a word with `w & mask = pattern` is the row's, and its data byte is its operand. -/
structure WordRow where
  mask    : Word
  pattern : Word
  make    : Byte → Instr

/-- The WORD16 rows of spec/opcode_table.json, in its order. -/
def wordRows : List WordRow :=
  [ ⟨0xFF00, 0x0000, .noop⟩,
    ⟨0xFF00, 0x0100, .digit1⟩,
    ⟨0xFF00, 0x0200, .digit2⟩,
    ⟨0xFF00, 0x0300, .digit3⟩,
    ⟨0xFF00, 0x0400, .digit4⟩,
    ⟨0xFF00, 0x0500, .digit5⟩,
    ⟨0xFF00, 0x0600, .digit6⟩,
    ⟨0xFF00, 0x0700, .digit7⟩,
    ⟨0xFF00, 0x0800, .digit8⟩,
    ⟨0xFF00, 0x0900, .decodeMode⟩,
    ⟨0xFF00, 0x0A00, .intensity⟩,
    ⟨0xFF00, 0x0B00, .scanLimit⟩,
    ⟨0xFF00, 0x0C00, .shutdown⟩,
    ⟨0xFF00, 0x0F00, .displayTest⟩ ]

/-! ### The command -/

/-- The opcodes in R64's order. -/
def opcodes : List Opcode :=
  [ .sendWord, .bitmaskFor, .bitmaskForNum, .isBcd, .setBcd, .setRaw, .sendDigit, .sendChar, .sendNumberInt,
    .sendNumberDec, .setIntensity, .setScanLimit, .setShutdown, .setDisplayTest, .sendNop, .clear, .fillZeros, .init,
    .fini ]

/-- R64's opcode column (the values are decision D2). -/
def opcodeByte : Opcode → Byte
  | .sendWord       => 0x00
  | .bitmaskFor     => 0x01
  | .bitmaskForNum  => 0x02
  | .isBcd          => 0x03
  | .setBcd         => 0x04
  | .setRaw         => 0x05
  | .sendDigit      => 0x06
  | .sendChar       => 0x07
  | .sendNumberInt  => 0x08
  | .sendNumberDec  => 0x09
  | .setIntensity   => 0x0A
  | .setScanLimit   => 0x0B
  | .setShutdown    => 0x0C
  | .setDisplayTest => 0x0D
  | .sendNop        => 0x0E
  | .clear          => 0x0F
  | .fillZeros      => 0x10
  | .init           => 0x11
  | .fini           => 0x12

/-- R64's operand column: the types of a command's operands, in order. -/
def signature : Opcode → List OperandType
  | .sendWord       => [.u16]
  | .bitmaskFor     => [.naturals]
  | .bitmaskForNum  => [.natural]
  | .isBcd          => [.natural]
  | .setBcd         => [.u8]
  | .setRaw         => [.u8]
  | .sendDigit      => [.natural, .u8, .boolean]
  | .sendChar       => [.natural, .glyph, .boolean]
  | .sendNumberInt  => [.integer]
  | .sendNumberDec  => [.binary64, .precision]
  | .setIntensity   => [.u8]
  | .setScanLimit   => [.u8]
  | .setShutdown    => [.boolean]
  | .setDisplayTest => [.boolean]
  | .sendNop        => [.u8]
  | .clear          => []
  | .fillZeros      => []
  | .init           => [.pin, .pin, .pin, .u8, .u8]
  | .fini           => []

/-- R64's defaults: the values of the operands that may be omitted from the right (R69), for the last operands of the
command's signature. `INIT`'s two come from the configuration (R5). -/
def defaultOperands (cfg : Config) : Opcode → List Operand
  | .sendDigit => [.boolean false]
  | .sendChar  => [.boolean false]
  | .sendNop   => [.u8 0x00]
  | .init      => [.u8 cfg.defaultScanLimit, .u8 cfg.defaultIntensity]
  | .sendWord | .bitmaskFor | .bitmaskForNum | .isBcd | .setBcd | .setRaw => []
  | .sendNumberInt | .sendNumberDec | .setIntensity | .setScanLimit => []
  | .setShutdown | .setDisplayTest | .clear | .fillZeros | .fini => []

/-- The operands of a command with the omitted ones filled in: as many defaults, taken from the right, as the signature
still lacks. A command that lacks more than its defaults stays short, and is then refused. -/
def fillOperands (cfg : Config) (o : Opcode) (operands : List Operand) : List Operand :=
  let missing := (signature o).length - operands.length
  let defaults := defaultOperands cfg o
  operands ++ defaults.drop (defaults.length - missing)

/-- Why a port unit spells no instruction. -/
inductive DecodeError where
  /-- R67 (1): opcodes 0x13 to 0xFF. -/
  | reservedOpcode (opcode : Byte)
  /-- The operands are not those of the opcode's row, or one is wider than its stated width (R64, R65, R67 (4); log entry
  10). -/
  | malformedOperands (opcode : Byte)
  /-- R79: a word whose address no row names. SEND_WORD carries such words (log entry 12). -/
  | unnamedWord (w : Word)
  deriving DecidableEq, Repr

/-- `n` is a two's complement value of `width` bits: `-2^(width - 1) ≤ n < 2^(width - 1)` (R64, decision D12). -/
def fitsSigned (width : Nat) (n : Int) : Bool := -2 ^ width ≤ 2 * n && 2 * n < 2 ^ width

/-- `p` is an unsigned value of `width` bits (R64, decision D15). -/
def fitsUnsigned (width p : Nat) : Bool := p < 2 ^ width

/-- The operand is no wider than its stated width, where the configuration states one (R5, R67 (4)). -/
def Operand.fits (cfg : Config) : Operand → Bool
  | .integer n => fitsSigned cfg.intW n
  | .precision p => fitsUnsigned cfg.precW p
  | .u8 _ | .u16 _ | .natural _ | .naturals _ | .boolean _ | .glyph _ | .binary64 _ | .pin _ => true

/-- The opcode a byte spells, if it is not reserved (R64, R67). -/
def opcodeOf (b : Byte) : Option Opcode := opcodes.find? fun o => opcodeByte o == b

/-- The command an opcode and its whole operand list spell (R64). -/
def commandOf (o : Opcode) (operands : List Operand) : Option Instr :=
  match o with
  | .sendWord => match operands with | [.u16 w] => some (.sendWord w) | _ => none
  | .bitmaskFor => match operands with | [.naturals ds] => some (.bitmaskFor ds) | _ => none
  | .bitmaskForNum => match operands with | [.natural n] => some (.bitmaskForNum n) | _ => none
  | .isBcd => match operands with | [.natural d] => some (.isBcd d) | _ => none
  | .setBcd => match operands with | [.u8 m] => some (.setBcd m) | _ => none
  | .setRaw => match operands with | [.u8 m] => some (.setRaw m) | _ => none
  | .sendDigit =>
    match operands with | [.natural pos, .u8 v, .boolean dot] => some (.sendDigit pos v dot) | _ => none
  | .sendChar =>
    match operands with | [.natural pos, .glyph g, .boolean dot] => some (.sendChar pos g dot) | _ => none
  | .sendNumberInt => match operands with | [.integer n] => some (.sendNumberInt n) | _ => none
  | .sendNumberDec => match operands with | [.binary64 x, .precision p] => some (.sendNumberDec x p) | _ => none
  | .setIntensity => match operands with | [.u8 v] => some (.setIntensity v) | _ => none
  | .setScanLimit => match operands with | [.u8 sl] => some (.setScanLimit sl) | _ => none
  | .setShutdown => match operands with | [.boolean b] => some (.setShutdown b) | _ => none
  | .setDisplayTest => match operands with | [.boolean b] => some (.setDisplayTest b) | _ => none
  | .sendNop => match operands with | [.u8 d] => some (.sendNop d) | _ => none
  | .clear => match operands with | [] => some .clear | _ => none
  | .fillZeros => match operands with | [] => some .fillZeros | _ => none
  | .init =>
    match operands with
    | [.pin din, .pin clk, .pin load, .u8 sl, .u8 it] => some (.init din clk load sl it)
    | _ => none
  | .fini => match operands with | [] => some .fini | _ => none

/-! ### Decoding -/

/-- Decode a command: the opcode alone tells commands apart (R65), and a reserved one is refused before its operands
are looked at (60_exceptions.md R222). An operand wider than its stated width spells nothing (R67 (4)). -/
def decodeCommand (cfg : Config) (b : Byte) (operands : List Operand) : Except DecodeError Instr :=
  match opcodeOf b with
  | none => .error (.reservedOpcode b)
  | some o =>
    let full := fillOperands cfg o operands
    match if full.all (Operand.fits cfg) then commandOf o full else none with
    | none => .error (.malformedOperands b)
    | some i => .ok i

/-- Decode a register word by the WORD16 rows of the table. -/
def decodeWord (w : Word) : Except DecodeError Instr :=
  match wordRows.find? fun r => w &&& r.mask == r.pattern with
  | none => .error (.unnamedWord w)
  | some r => .ok (r.make (wordData w))

/-- Decode one port unit. Total. -/
def decode (cfg : Config) : PortUnit → Except DecodeError Instr
  | .command b operands => decodeCommand cfg b operands
  | .word w => decodeWord w

/-! ### Encoding -/

/-- A command with all its operands, by R64's row. -/
def commandUnit (o : Opcode) (operands : List Operand) : PortUnit := .command (opcodeByte o) operands

/-- The port unit that spells an instruction: R64's row with every operand written, or R72 to R78's word. -/
def encode : Instr → PortUnit
  | .sendWord w => commandUnit .sendWord [.u16 w]
  | .bitmaskFor ds => commandUnit .bitmaskFor [.naturals ds]
  | .bitmaskForNum n => commandUnit .bitmaskForNum [.natural n]
  | .isBcd d => commandUnit .isBcd [.natural d]
  | .setBcd m => commandUnit .setBcd [.u8 m]
  | .setRaw m => commandUnit .setRaw [.u8 m]
  | .sendDigit pos v dot => commandUnit .sendDigit [.natural pos, .u8 v, .boolean dot]
  | .sendChar pos g dot => commandUnit .sendChar [.natural pos, .glyph g, .boolean dot]
  | .sendNumberInt n => commandUnit .sendNumberInt [.integer n]
  | .sendNumberDec x p => commandUnit .sendNumberDec [.binary64 x, .precision p]
  | .setIntensity v => commandUnit .setIntensity [.u8 v]
  | .setScanLimit sl => commandUnit .setScanLimit [.u8 sl]
  | .setShutdown b => commandUnit .setShutdown [.boolean b]
  | .setDisplayTest b => commandUnit .setDisplayTest [.boolean b]
  | .sendNop d => commandUnit .sendNop [.u8 d]
  | .clear => commandUnit .clear []
  | .fillZeros => commandUnit .fillZeros []
  | .init din clk load sl it => commandUnit .init [.pin din, .pin clk, .pin load, .u8 sl, .u8 it]
  | .fini => commandUnit .fini []
  | .noop data => .word (regWord 0x00 data)
  | .digit1 data => .word (regWord 0x01 data)
  | .digit2 data => .word (regWord 0x02 data)
  | .digit3 data => .word (regWord 0x03 data)
  | .digit4 data => .word (regWord 0x04 data)
  | .digit5 data => .word (regWord 0x05 data)
  | .digit6 data => .word (regWord 0x06 data)
  | .digit7 data => .word (regWord 0x07 data)
  | .digit8 data => .word (regWord 0x08 data)
  | .decodeMode data => .word (regWord 0x09 data)
  | .intensity data => .word (regWord 0x0A data)
  | .scanLimit data => .word (regWord 0x0B data)
  | .shutdown data => .word (regWord 0x0C data)
  | .displayTest data => .word (regWord 0x0F data)

/-! ### The opcode table's own numbering of bits -/

/-- The operand whose bits are all 0, of each type. A glyph has no bits: its first name stands (log entry 8). -/
def zeroOperand : OperandType → Operand
  | .u8 => .u8 0
  | .u16 => .u16 0
  | .natural => .natural 0
  | .naturals => .naturals []
  | .boolean => .boolean false
  | .glyph => .glyph .dash
  | .integer => .integer 0
  | .binary64 => .binary64 0
  | .precision => .precision 0
  | .pin => .pin 0

/-- The port unit whose table bits are `w`: a row of 16 bits is a register word, any other is a command whose opcode is
`w[7:0]` and whose operands, which the table gives no bits, are zero. -/
def tableUnit (nbits w : Nat) : PortUnit :=
  if nbits = 16 then .word (BitVec.ofNat 16 w)
  else
    let b := BitVec.ofNat 8 w
    .command b (match opcodeOf b with | none => [] | some o => (signature o).map zeroOperand)

/-- The instruction the decoder reads from an instruction whose table bits are `w`. -/
def decodeTableWord (nbits w : Nat) : Option Instr :=
  match decode Config.standard (tableUnit nbits w) with
  | .ok i => some i
  | .error _ => none

end Sys2Proof
end

