-- ==== Sys2Proof/Machine/Binary64.lean ====
section
/-! DEFINITION. The IEEE 754 binary64 facts that 43_number_encoder.md R162 and R163 use: the classes of a 64-bit pattern,
the exact integer and fraction parts of its magnitude, and one rounding to nearest even. The layout is the spec's "from
general knowledge" (00_scope.md R7; log entry 14). -/

namespace Sys2Proof.Machine

/-- The biased exponent field, bits 62 to 52. -/
def f64Exponent (x : BitVec 64) : Nat := (x.extractLsb' 52 11).toNat

/-- The fraction field, bits 51 to 0. -/
def f64Fraction (x : BitVec 64) : Nat := (x.extractLsb' 0 52).toNat

/-- The sign bit. -/
def f64Sign (x : BitVec 64) : Bool := x.getLsbD 63

/-- NaN or an infinity: the exponent field is all ones. -/
def f64NonFinite (x : BitVec 64) : Bool := f64Exponent x == 2047

/-- `x < 0.0` by IEEE comparison for a finite `x`: false for −0.0 (R163, decision D16). -/
def f64Negative (x : BitVec 64) : Bool := f64Sign x && !(f64Exponent x == 0 && f64Fraction x == 0)

/-- The integer significand of a finite `|x|`, with the hidden bit of a normal number. -/
def f64Significand (x : BitVec 64) : Nat :=
  if f64Exponent x = 0 then f64Fraction x else 2 ^ 52 + f64Fraction x

/-- The exponent field with a subnormal's read as 1: `|x| = significand * 2^(scale - 1075)`. -/
def f64Scale (x : BitVec 64) : Nat := max (f64Exponent x) 1

/-- How many bits of the significand lie below the binary point: `k` of `|x| = significand / 2^k`, 0 where `|x|` is
an integer multiple of the significand. -/
def f64PointBits (x : BitVec 64) : Nat := 1075 - f64Scale x

/-- `trunc(|x|)`, exact (R163). -/
def f64Trunc (x : BitVec 64) : Nat :=
  (f64Significand x * 2 ^ (f64Scale x - 1075)) / 2 ^ f64PointBits x

/-- `|x| - trunc(|x|)` as a numerator over `2^(f64PointBits x)`, exact (R163). -/
def f64FracNumerator (x : BitVec 64) : Nat :=
  (f64Significand x * 2 ^ (f64Scale x - 1075)) % 2 ^ f64PointBits x

/-- `n / 2^b` rounded to the nearest natural, ties to even. -/
def roundShift (n b : Nat) : Nat :=
  let q := n / 2 ^ b
  let r := n % 2 ^ b
  if 2 * r > 2 ^ b ∨ (2 * r = 2 ^ b ∧ q % 2 = 1) then q + 1 else q

/-- The number of binary digits of `n`. -/
def bitLength (n : Nat) : Nat := if n = 0 then 0 else n.log2 + 1

/-- `RNE64` of the dyadic `n / 2^k`, `k ≤ 1074`, below binary64's overflow bound: the numerator, over the same `2^k`, of
the value rounded to 53 significant bits, ties to even. The bits dropped are never below binary64's least exponent,
because `k ≤ 1074`. -/
def rne64 (n : Nat) : Nat :=
  let drop := bitLength n - 53
  roundShift n drop * 2 ^ drop

/-- `fp = trunc(RNE64(f * 10^p))` for `p ≤ 22`, where `10^p` is an exact binary64 value (R163). -/
def split64Fraction (x : BitVec 64) (p : Nat) : Nat :=
  rne64 (f64FracNumerator x * 10 ^ p) / 2 ^ f64PointBits x

end Sys2Proof.Machine
end

