-- ==== Sys2Proof/Machine/Operands.lean ====
section
/-! DEFINITION. How operands become data bytes, masks and splits (30_encoding.md R61, R62). -/

namespace Sys2Proof.Machine

/-- `bit(d) = 1 << d` (00_scope.md R8). -/
def digitBit (d : Nat) : Byte := 1#8 <<< d

/-- `DM[d] == 1` (10_state.md R22). -/
def dmBit (dm : Byte) (d : Nat) : Bool := dm.getLsbD d

/-- `bcdCapable(v) := (v <= 15)` (41_decode_mode.md R125). -/
def bcdCapable (v : Byte) : Bool := v.toNat ≤ 15

/-- The code of a glyph (42_digit_encoder.md R142). -/
def glyphCode : Glyph → Byte
  | .dash  => 0x0A
  | .e     => 0x0B
  | .h     => 0x0C
  | .l     => 0x0D
  | .p     => 0x0E
  | .blank => 0x0F

/-- The data byte of a digit word (42_digit_encoder.md R140, R141): the dot flag is bit 7 of a BCD-capable value, and is
ignored for any other. -/
def digitData (v : Byte) (dot : Bool) : Byte :=
  if bcdCapable v then v ||| (if dot then 0x80 else 0x00) else v

/-- The data byte of an INTENSITY word: `v div 16` (44_chip_control.md R180). -/
def intensityData (v : Byte) : Byte := v / 16

/-- `min(max(s, 1), 8)` (44_chip_control.md R181). -/
def clampLimit (sl : Byte) : Nat := min (max sl.toNat 1) 8

/-- The data byte of a SCAN_LIMIT word in either mode (44_chip_control.md R181; 90_conflicts.md C1). -/
def scanData (mode : ScanLimitMode) (sl : Byte) : Byte :=
  match mode with
  | .clamped => BitVec.ofNat 8 (clampLimit sl - 1)
  | .literal => sl - 1

/-- The data byte of a SHUTDOWN word: the chip's logic is inverted (44_chip_control.md R182). -/
def shutdownData (b : Bool) : Byte := if b then 0x00 else 0x01

/-- The data byte of a DISPLAY_TEST word (44_chip_control.md R183, decision D8). -/
def displayTestData (b : Bool) : Byte := if b then 0x01 else 0x00

/-- The mask of a list of digit indexes; an entry above 7 sets nothing (41_decode_mode.md R120). -/
def maskOf (ds : List Nat) : Byte :=
  ds.foldl (fun m d => if d ≤ 7 then m ||| digitBit d else m) 0x00

/-- The decimal digits of `t`, least significant first, none for 0: R124's loop. `fuel` bounds its iterations. -/
def decimalLoop : Nat → Nat → List Nat
  | 0, _ => []
  | fuel + 1, t => if t = 0 then [] else (t % 10) :: decimalLoop fuel (t / 10)

/-- The digits of a composite number (41_decode_mode.md R124); 0 has the one digit 0. A natural has no more decimal
digits than binary ones, so the loop never runs out of fuel. -/
def compositeDigits (n : Nat) : List Nat :=
  if n = 0 then [0] else decimalLoop (n.log2 + 1) n

/-- What `SPLIT` gives (43_number_encoder.md R163). -/
structure SplitParts where
  neg : Bool
  ip  : Nat
  fp  : Nat
  deriving DecidableEq, Repr

/-- The fraction value of R163, by the configured split: `SPLIT64` for `p ≤ 22`, `SPLIT_HI` above, and a free value for
a substituted split (log entry 13). -/
def fractionValue (cfg : Config) (x : BitVec 64) (p : Nat) : Nat :=
  match cfg.split with
  | .split64 => if p ≤ 22 then split64Fraction x p else Config.splitHi x p
  | .substituted => Config.splitSubstituted x p

/-- `SPLIT(x, p)` for a finite `x` (R163). Whatever the split, `neg` and `ip` are exact. -/
def splitDecimal (cfg : Config) (x : BitVec 64) (p : Nat) : SplitParts where
  neg := f64Negative x
  ip  := f64Trunc x
  fp  := fractionValue cfg x p

end Sys2Proof.Machine
end

