-- ==== Sys2Proof/Machine/Ops.lean ====
section
/-! DEFINITION. The operations the meanings share: the lines, one collaborator call, the serializer's `emitWord`
(40_serializer.md R101), the checks of 60_exceptions.md R222, the completion of a command, and ContractViolation (R220). -/

namespace Sys2Proof.Machine

/-! ### Lines -/

/-- The value of one line. -/
def lineOf {α : Type} (l : Lines α) : Line → α
  | .din  => l.din
  | .clk  => l.clk
  | .load => l.load

/-- The lines with one of them changed. -/
def putLine {α : Type} (l : Lines α) (p : Line) (v : α) : Lines α :=
  match p with
  | .din  => { l with din := v }
  | .clk  => { l with clk := v }
  | .load => { l with load := v }

/-- The latch level of a logic level. -/
def levelOf (b : Bool) : Level := if b then .high else .low

/-- A read of an output latch; before INIT it faults (10_state.md R24). No command reads a line. -/
def readLine (s : State) (p : Line) : Except Fault Bool :=
  match lineOf s.lines p with
  | .unspecified => .error (.lineUnspecified p)
  | .low => .ok false
  | .high => .ok true

/-! ### Collaborator calls (00_scope.md R7) -/

/-- `pinSet(p, lvl)`. -/
def pinSet (p : Line) (lvl : Bool) (s : State) : State :=
  { s with lines := putLine s.lines p (levelOf lvl), pt := s.pt ++ [.set p lvl] }

/-- `pinCfgOut(p)`. -/
def pinCfgOut (p : Line) (s : State) : State :=
  { s with dir := putLine s.dir p true, pt := s.pt ++ [.out p] }

/-! ### The serializer (40_serializer.md R101) -/

/-- One iteration of R101's loop, for bit `i`. -/
def sendBit (w : Word) (i : Nat) (s : State) : State :=
  pinSet .clk true (pinSet .din (w.getLsbD i) (pinSet .clk false s))

/-- R101's loop for `i` from `n - 1` down to 0. The recursion variable is the serializer's bit index (R31). -/
def sendBits (w : Word) : Nat → State → State
  | 0, s => s
  | n + 1, s => sendBits w n (sendBit w n s)

/-- R101 after the loop: the clock low, the latch pulse, the data line low. -/
def latchPulse (s : State) : State :=
  pinSet .din false (pinSet .load false (pinSet .load true (pinSet .clk false s)))

/-- `WT <- WT ++ [w]`. -/
def recordWord (w : Word) (s : State) : State := { s with wt := s.wt ++ [w] }

/-- `emitWord(w)` (R101). -/
def emitWord (w : Word) (s : State) : State :=
  recordWord w (latchPulse (sendBits w 16 (pinSet .load false s)))

/-! ### Outcomes of a command -/

/-- The outcome type of a meaning. -/
abbrev Result := Host.Outcome State Fault Refusal

/-- A command completes: `ci` advances by 1 (10_state.md R29) and the host gets what a query returns (R30). -/
def complete (r : Option QueryResult) (s : State) : Result :=
  .next { s with ci := s.ci + 1, result := r }

/-- Taking the block's one exception (R220): `FAULT` and `FINFO` are set and nothing else changes, `ci` included. The
block then takes no further step, because every command is refused while `FAULT = 1`. There is no return from it (R227). -/
def raiseContractViolation (cause : Cause) (op : Opcode) (operand : Nat) (s : State) : Result :=
  .next (setFault ⟨cause, opcodeByte op, operand⟩ s)

/-- R222's checks in R222's order, `FAULT` and then `LC`, before a command that needs `LC = required`. -/
def whenAllowed (required : Lifecycle) (s : State) (run : State → Result) : Result :=
  if s.fault then .refused .faulted
  else if s.lc = required then run s
  else .refused (.lifecycle s.lc)

/-! ### The host's program -/

/-- The command sequence `l` with `u` at index `i`. Indexes the sequence did not reach are filled with NOOP words. -/
def placeUnit : List PortUnit → Nat → PortUnit → List PortUnit
  | [], 0, u => [u]
  | [], i + 1, u => .word (regWord 0x00 0x00) :: placeUnit [] i u
  | _ :: t, 0, u => u :: t
  | h :: t, i + 1, u => h :: placeUnit t i u

/-- The unit is an INIT command, the only one a block that is not yet LIVE accepts (R20, R241). -/
def isInitUnit : PortUnit → Bool
  | .command b _ => b == opcodeByte .init
  | .word _ => false

/-- `s` made ready for `u` to be handed over as its very next unit. A block that INIT has not yet started refuses all but
INIT (R20), so for any other unit `LC` is set as INIT leaves it. For the host's own probing of single instructions: no
step calls this (log entry 1). -/
def readyFor (u : PortUnit) (s : State) : State :=
  if s.lc = .uninit ∧ isInitUnit u = false then { s with lc := .live } else s

/-- The unit the host hands over next: index `ci` of its sequence (R29). -/
def fetchUnit (s : State) : Option PortUnit := s.prog[s.ci]?

/-- The refusal of a unit that spells no instruction. -/
def decodeRefusal : DecodeError → Refusal
  | .reservedOpcode b => .reservedOpcode b
  | .malformedOperands b => .malformedOperands b
  | .unnamedWord w => .unnamedWord w

end Sys2Proof.Machine
end

