-- ==== Sys2Proof/Machine/ChipControl.lean ====
section
/-! DEFINITION. The one-word chip-control commands (44_chip_control.md). -/

namespace Sys2Proof.Machine

/-- R180's pseudocode; also run inside INIT. -/
def setIntensity (v : Byte) (s : State) : State := emitWord (regWord 0x0A (intensityData v)) s

/-- R181's pseudocode, in the configured mode; also run inside INIT. -/
def setScanLimit (sl : Byte) (s : State) : State := emitWord (regWord 0x0B (scanData s.cfg.scanLimitMode sl)) s

/-- R182's pseudocode; also run inside INIT and FINI. -/
def setShutdown (b : Bool) (s : State) : State := emitWord (regWord 0x0C (shutdownData b)) s

/-- SET_INTENSITY (R180). -/
def execSetIntensity (v : Byte) (s : State) : Result :=
  whenAllowed .live s fun s => complete none (setIntensity v s)

/-- SET_SCAN_LIMIT (R181). -/
def execSetScanLimit (sl : Byte) (s : State) : Result :=
  whenAllowed .live s fun s => complete none (setScanLimit sl s)

/-- SET_SHUTDOWN (R182). -/
def execSetShutdown (b : Bool) (s : State) : Result :=
  whenAllowed .live s fun s => complete none (setShutdown b s)

/-- SET_DISPLAY_TEST (R183). -/
def execSetDisplayTest (b : Bool) (s : State) : Result :=
  whenAllowed .live s fun s => complete none (emitWord (regWord 0x0F (displayTestData b)) s)

/-- SEND_NOP (R184). -/
def execSendNop (d : Byte) (s : State) : Result :=
  whenAllowed .live s fun s => complete none (emitWord (regWord 0x00 d) s)

end Sys2Proof.Machine
end

