-- ==== Sys2Proof/Machine/DecodeMode.lean ====
section
/-! DEFINITION. The decode-mode register file (41_decode_mode.md). -/

namespace Sys2Proof.Machine

/-- `DM <- v`, then the DECODE_MODE word with the whole register (R122, R123). -/
def writeDecodeMode (v : Byte) (s : State) : State :=
  emitWord (regWord 0x09 v) { s with dm := v }

/-- R122's pseudocode; also run inside SEND_DIGIT and INIT. -/
def setBcd (m : Byte) (s : State) : State := writeDecodeMode (s.dm ||| m) s

/-- R123's pseudocode; also run inside SEND_DIGIT. -/
def setRaw (m : Byte) (s : State) : State := writeDecodeMode (s.dm &&& ~~~m) s

/-- BITMASK_FOR (R120). -/
def execBitmaskFor (ds : List Nat) (s : State) : Result :=
  whenAllowed .live s fun s => complete (some (.mask (maskOf ds))) s

/-- BITMASK_FOR_NUM (R124). -/
def execBitmaskForNum (n : Nat) (s : State) : Result :=
  whenAllowed .live s fun s => complete (some (.mask (maskOf (compositeDigits n)))) s

/-- IS_BCD (R121). -/
def execIsBcd (d : Nat) (s : State) : Result :=
  whenAllowed .live s fun s =>
    if d > 7 then raiseContractViolation .digitIndexRange .isBcd d s
    else complete (some (.bcd (dmBit s.dm d))) s

/-- SET_BCD (R122). -/
def execSetBcd (m : Byte) (s : State) : Result :=
  whenAllowed .live s fun s => complete none (setBcd m s)

/-- SET_RAW (R123). -/
def execSetRaw (m : Byte) (s : State) : Result :=
  whenAllowed .live s fun s => complete none (setRaw m s)

end Sys2Proof.Machine
end

