-- ==== Sys2Proof/Machine/DigitEncoder.lean ====
section
/-! DEFINITION. The BCD/segment digit encoder (42_digit_encoder.md). -/

namespace Sys2Proof.Machine

/-- R140's mode switch of digit index `d`, made only when the class of `v` differs from the stored mode. -/
def switchMode (d : Nat) (v : Byte) (s : State) : State :=
  if bcdCapable v then
    if dmBit s.dm d then s else setBcd (digitBit d) s
  else
    if dmBit s.dm d then setRaw (digitBit d) s else s

/-- R140's pseudocode after the position check: the mode switch, then the digit word. -/
def sendDigit (pos : Nat) (v : Byte) (dot : Bool) (s : State) : State :=
  emitWord (regWord (BitVec.ofNat 8 pos) (digitData v dot)) (switchMode (pos - 1) v s)

/-- R140 with its position check, for the command `op` the host issued (R143: SEND_CHAR records its own opcode). -/
def sendDigitChecked (op : Opcode) (pos : Nat) (v : Byte) (dot : Bool) (s : State) : Result :=
  if pos < 1 ∨ pos > 8 then raiseContractViolation .positionRange op pos s
  else complete none (sendDigit pos v dot s)

/-- One SEND_DIGIT call made by another command, at a position in 1 to 8. -/
structure DigitCall where
  pos   : Nat
  value : Byte
  dot   : Bool
  deriving DecidableEq, Repr

/-- SEND_DIGIT calls in order. -/
def sendCalls (calls : List DigitCall) (s : State) : State :=
  calls.foldl (fun s c => sendDigit c.pos c.value c.dot s) s

/-- The same value at positions 1 to 8, ascending (R144, R145, decision D11). -/
def allPositions (v : Byte) : List DigitCall := (List.range 8).map fun d => ⟨d + 1, v, false⟩

/-- CLEAR's calls: the BLANK glyph everywhere (R144). -/
def clearDisplay (s : State) : State := sendCalls (allPositions (glyphCode .blank)) s

/-- SEND_DIGIT (R140). -/
def execSendDigit (pos : Nat) (v : Byte) (dot : Bool) (s : State) : Result :=
  whenAllowed .live s fun s => sendDigitChecked .sendDigit pos v dot s

/-- SEND_CHAR (R143): SEND_DIGIT with a glyph's code. -/
def execSendChar (pos : Nat) (g : Glyph) (dot : Bool) (s : State) : Result :=
  whenAllowed .live s fun s => sendDigitChecked .sendChar pos (glyphCode g) dot s

/-- CLEAR (R144). -/
def execClear (s : State) : Result :=
  whenAllowed .live s fun s => complete none (clearDisplay s)

/-- FILL_ZEROS (R145). -/
def execFillZeros (s : State) : Result :=
  whenAllowed .live s fun s => complete none (sendCalls (allPositions 0x00) s)

end Sys2Proof.Machine
end

