-- ==== Sys2Proof/Machine/Lifecycle.lean ====
section
/-! DEFINITION. The lifecycle commands (45_lifecycle.md). -/

namespace Sys2Proof.Machine

/-- One pin of INIT's first loop: configured as an output, then set low (R200). -/
def configureLow (p : Line) (s : State) : State := pinSet p false (pinCfgOut p s)

/-- INIT's pin configuration: DIN, CLK, LOAD in that order (R200, decision D18). -/
def configurePins (din clk load : PinId) (s : State) : State :=
  configureLow .load (configureLow .clk (configureLow .din { s with pins := some ⟨din, clk, load⟩ }))

/-- INIT's word sequence, from `DM <- 0xFF` to `SET_SHUTDOWN(false)` (R200). -/
def initWords (sl it : Byte) (s : State) : State :=
  setShutdown false (clearDisplay (setBcd 0xFF (setIntensity it (setScanLimit sl { s with dm := 0xFF }))))

/-- INIT (R200). -/
def execInit (din clk load : PinId) (sl it : Byte) (s : State) : Result :=
  whenAllowed .uninit s fun s =>
    complete none { initWords sl it (configurePins din clk load s) with lc := .live }

/-- FINI (R203). The pins stay configured as outputs. -/
def execFini (s : State) : Result :=
  whenAllowed .live s fun s =>
    complete none { setShutdown true (clearDisplay s) with lc := .destroyed }

end Sys2Proof.Machine
end

