-- ==== Sys2Proof/Machine/Number.lean ====
section
/-! DEFINITION. The number-to-digit-stream encoder (43_number_encoder.md). A number command reads no state but the
configuration, so its SEND_DIGIT calls are computed as a list and then made in order. -/

namespace Sys2Proof.Machine

/-- The value byte of the least significant decimal digit of `t`. -/
def lowDigit (t : Nat) : Byte := BitVec.ofNat 8 (t % 10)

/-- The digits of `t` from position `pos` up, least significant first, until they run out or `room` positions are
written: the loop "while t > 0 and pos <= last" of R160 and R162. -/
def digitCalls : Nat → Nat → Nat → List DigitCall
  | 0, _, _ => []
  | room + 1, pos, t => if t = 0 then [] else ⟨pos, lowDigit t, false⟩ :: digitCalls room (pos + 1) (t / 10)

/-- The digits of `t` from position `pos` up, with zeros once they run out: the loop "for k in 1..fmax" of R162. -/
def paddedCalls : Nat → Nat → Nat → List DigitCall
  | 0, _, _ => []
  | room + 1, pos, t => ⟨pos, lowDigit t, false⟩ :: paddedCalls room (pos + 1) (t / 10)

/-- The dash at position `pos`, if the value is negative and the position exists (R160, R162). -/
def dashCalls (neg : Bool) (pos : Nat) : List DigitCall :=
  if neg ∧ pos ≤ 8 then [⟨pos, glyphCode .dash, false⟩] else []

/-- The calls of SEND_NUMBER_INT (R160). The magnitude is exact: it does not wrap at the least integer (decision D12). -/
def intCalls (n : Int) : List DigitCall :=
  if n = 0 then [⟨1, 0x00, false⟩]
  else
    let digits := digitCalls 8 1 n.natAbs
    digits ++ dashCalls (n < 0) (1 + digits.length)

/-- The fraction calls of SEND_NUMBER_DEC (R162; 90_conflicts.md C4). -/
def fractionCalls (fracPad : Bool) (p fp : Nat) : List DigitCall :=
  if fp = 0 ∨ fracPad then paddedCalls (min p 8) 1 fp else digitCalls (min p 8) 1 fp

/-- The integer calls of SEND_NUMBER_DEC: the dot-flagged digit at position `p + 1`, then the higher digits (R162). -/
def integerCalls (p ip : Nat) : List DigitCall :=
  ⟨p + 1, lowDigit ip, true⟩ :: digitCalls (7 - p) (p + 2) (ip / 10)

/-- The calls of SEND_NUMBER_DEC for a finite operand (R162). -/
def decCalls (fracPad : Bool) (p : Nat) (parts : SplitParts) : List DigitCall :=
  let fraction := fractionCalls fracPad p parts.fp
  if p + 1 > 8 then fraction
  else
    let integer := integerCalls p parts.ip
    fraction ++ integer ++ dashCalls parts.neg (p + 1 + integer.length)

/-- SEND_NUMBER_INT (R160). -/
def execSendNumberInt (n : Int) (s : State) : Result :=
  whenAllowed .live s fun s => complete none (sendCalls (intCalls n) s)

/-- SEND_NUMBER_DEC (R162). -/
def execSendNumberDec (x : BitVec 64) (p : Nat) (s : State) : Result :=
  whenAllowed .live s fun s =>
    if f64NonFinite x then raiseContractViolation .nonfiniteOperand .sendNumberDec x.toNat s
    else complete none (sendCalls (decCalls s.cfg.fracPad p (splitDecimal s.cfg x p)) s)

end Sys2Proof.Machine
end

