-- ==== Sys2Proof/Machine/RegisterWord.lean ====
section
/-! DEFINITION. The register words of 30_encoding.md R72 to R78, handed to the block bare. Each rule lists SEND_WORD among
the emitters of its word, and SEND_WORD sends any word as given (40_serializer.md R100): that is what a bare word does here,
under SEND_WORD's checks (DESIGN CHOICE, log entry 7). What the word does at the chip is the receiver's view
(Machine/Receiver.lean). -/

namespace Sys2Proof.Machine

/-- A bare register word goes to the serializer. -/
def sendRegisterWord (addr data : Byte) (s : State) : Result :=
  whenAllowed .live s fun s => complete none (emitWord (regWord addr data) s)

/-- The NOOP word (R72). -/
def execNoop (data : Byte) (s : State) : Result := sendRegisterWord 0x00 data s

/-- The DIGIT word of position 1 (R73). -/
def execDigit1 (data : Byte) (s : State) : Result := sendRegisterWord 0x01 data s

/-- The DIGIT word of position 2 (R73). -/
def execDigit2 (data : Byte) (s : State) : Result := sendRegisterWord 0x02 data s

/-- The DIGIT word of position 3 (R73). -/
def execDigit3 (data : Byte) (s : State) : Result := sendRegisterWord 0x03 data s

/-- The DIGIT word of position 4 (R73). -/
def execDigit4 (data : Byte) (s : State) : Result := sendRegisterWord 0x04 data s

/-- The DIGIT word of position 5 (R73). -/
def execDigit5 (data : Byte) (s : State) : Result := sendRegisterWord 0x05 data s

/-- The DIGIT word of position 6 (R73). -/
def execDigit6 (data : Byte) (s : State) : Result := sendRegisterWord 0x06 data s

/-- The DIGIT word of position 7 (R73). -/
def execDigit7 (data : Byte) (s : State) : Result := sendRegisterWord 0x07 data s

/-- The DIGIT word of position 8 (R73). -/
def execDigit8 (data : Byte) (s : State) : Result := sendRegisterWord 0x08 data s

/-- The DECODE_MODE word. `DM` is not written: only SET_BCD and SET_RAW write it (R22, R245) (R74). -/
def execDecodeMode (data : Byte) (s : State) : Result := sendRegisterWord 0x09 data s

/-- The INTENSITY word (R75). -/
def execIntensity (data : Byte) (s : State) : Result := sendRegisterWord 0x0A data s

/-- The SCAN_LIMIT word (R76). -/
def execScanLimit (data : Byte) (s : State) : Result := sendRegisterWord 0x0B data s

/-- The SHUTDOWN word (R77). -/
def execShutdown (data : Byte) (s : State) : Result := sendRegisterWord 0x0C data s

/-- The DISPLAY_TEST word (R78). -/
def execDisplayTest (data : Byte) (s : State) : Result := sendRegisterWord 0x0F data s

end Sys2Proof.Machine
end

