-- ==== Sys2Proof/Machine/Serializer.lean ====
section
/-! DEFINITION. The serializer primitive (40_serializer.md). -/

namespace Sys2Proof.Machine

/-- SEND_WORD (R100): the word is not checked or altered. -/
def execSendWord (w : Word) (s : State) : Result :=
  whenAllowed .live s fun s => complete none (emitWord w s)

end Sys2Proof.Machine
end

