-- ==== Sys2Proof/Machine/Dispatch.lean ====
section
/-! DEFINITION. Which meaning each instruction has. -/

namespace Sys2Proof.Machine

def exec (i : Instr) (s : State) : Host.Outcome State Fault Refusal :=
  match i with
  | .sendWord w => Sys2Proof.Machine.execSendWord w s
  | .bitmaskFor ds => Sys2Proof.Machine.execBitmaskFor ds s
  | .bitmaskForNum n => Sys2Proof.Machine.execBitmaskForNum n s
  | .isBcd d => Sys2Proof.Machine.execIsBcd d s
  | .setBcd m => Sys2Proof.Machine.execSetBcd m s
  | .setRaw m => Sys2Proof.Machine.execSetRaw m s
  | .sendDigit pos v dot => Sys2Proof.Machine.execSendDigit pos v dot s
  | .sendChar pos g dot => Sys2Proof.Machine.execSendChar pos g dot s
  | .sendNumberInt n => Sys2Proof.Machine.execSendNumberInt n s
  | .sendNumberDec x p => Sys2Proof.Machine.execSendNumberDec x p s
  | .setIntensity v => Sys2Proof.Machine.execSetIntensity v s
  | .setScanLimit sl => Sys2Proof.Machine.execSetScanLimit sl s
  | .setShutdown b => Sys2Proof.Machine.execSetShutdown b s
  | .setDisplayTest b => Sys2Proof.Machine.execSetDisplayTest b s
  | .sendNop d => Sys2Proof.Machine.execSendNop d s
  | .clear => Sys2Proof.Machine.execClear s
  | .fillZeros => Sys2Proof.Machine.execFillZeros s
  | .init din clk load sl it => Sys2Proof.Machine.execInit din clk load sl it s
  | .fini => Sys2Proof.Machine.execFini s
  | .noop data => Sys2Proof.Machine.execNoop data s
  | .digit1 data => Sys2Proof.Machine.execDigit1 data s
  | .digit2 data => Sys2Proof.Machine.execDigit2 data s
  | .digit3 data => Sys2Proof.Machine.execDigit3 data s
  | .digit4 data => Sys2Proof.Machine.execDigit4 data s
  | .digit5 data => Sys2Proof.Machine.execDigit5 data s
  | .digit6 data => Sys2Proof.Machine.execDigit6 data s
  | .digit7 data => Sys2Proof.Machine.execDigit7 data s
  | .digit8 data => Sys2Proof.Machine.execDigit8 data s
  | .decodeMode data => Sys2Proof.Machine.execDecodeMode data s
  | .intensity data => Sys2Proof.Machine.execIntensity data s
  | .scanLimit data => Sys2Proof.Machine.execScanLimit data s
  | .shutdown data => Sys2Proof.Machine.execShutdown data s
  | .displayTest data => Sys2Proof.Machine.execDisplayTest data s

end Sys2Proof.Machine
end

