-- ==== Sys2Proof/Machine/Step.lean ====
section
/-! DEFINITION. One step: the host hands over the command at index `ci`, and the block runs it to completion
(10_state.md R29; 70_reset_and_hazards.md R242). -/

namespace Sys2Proof.Machine

/-- One step. A unit that spells no instruction is refused here, which is R222's first check; the others are `exec`'s. -/
def step (s : State) : Host.Outcome State Fault Refusal :=
  match fetchUnit s with
  | none => .refused .noCommand
  | some u =>
    match decode s.cfg u with
    | .error e => .refused (decodeRefusal e)
    | .ok i => exec i s

/-- `s` with the unit whose table bits are `w` at the index the host hands over next, and, in a block that is still
UNINIT, with `LC` as that unit needs it to run (log entry 1). Nothing else changes. -/
def State.withFetchWord (s : State) (nbits w : Nat) : State :=
  let u := tableUnit nbits w
  readyFor u { s with prog := placeUnit s.prog s.ci u }

end Sys2Proof.Machine
end

