-- ==== Sys2Proof/Machine/Assembler.lean ====
section
/-! DEFINITION. The assembler syntax of 30_encoding.md R69: text to port units. The block itself reads no text; `decode`
reads what this makes. Where R69 is silent, log entry 26 says what stands here. -/

namespace Sys2Proof.Machine

/-- The mnemonics of R64. -/
def mnemonicOf : Opcode → String
  | .sendWord       => "SEND_WORD"
  | .bitmaskFor     => "BITMASK_FOR"
  | .bitmaskForNum  => "BITMASK_FOR_NUM"
  | .isBcd          => "IS_BCD"
  | .setBcd         => "SET_BCD"
  | .setRaw         => "SET_RAW"
  | .sendDigit      => "SEND_DIGIT"
  | .sendChar       => "SEND_CHAR"
  | .sendNumberInt  => "SEND_NUMBER_INT"
  | .sendNumberDec  => "SEND_NUMBER_DEC"
  | .setIntensity   => "SET_INTENSITY"
  | .setScanLimit   => "SET_SCAN_LIMIT"
  | .setShutdown    => "SET_SHUTDOWN"
  | .setDisplayTest => "SET_DISPLAY_TEST"
  | .sendNop        => "SEND_NOP"
  | .clear          => "CLEAR"
  | .fillZeros      => "FILL_ZEROS"
  | .init           => "INIT"
  | .fini           => "FINI"

/-- The opcode a mnemonic names. -/
def opcodeNamed (name : List Char) : Option Opcode := opcodes.find? fun o => (mnemonicOf o).toList == name

/-- The glyph a name names (R64, R142). -/
def glyphNamed (name : List Char) : Option Glyph :=
  [("DASH", Glyph.dash), ("E", .e), ("H", .h), ("L", .l), ("P", .p), ("BLANK", .blank)].findSome? fun g =>
    if g.1.toList == name then some g.2 else none

/-! ### Numbers -/

/-- The value of a digit character in bases up to 16. -/
def digitValue (c : Char) : Option Nat :=
  if '0' ≤ c ∧ c ≤ '9' then some (c.toNat - '0'.toNat)
  else if 'a' ≤ c ∧ c ≤ 'f' then some (c.toNat - 'a'.toNat + 10)
  else if 'A' ≤ c ∧ c ≤ 'F' then some (c.toNat - 'A'.toNat + 10)
  else none

/-- Digits in a base, continuing from a value. -/
def digitsValue (base : Nat) : Nat → List Char → Option Nat
  | acc, [] => some acc
  | acc, c :: rest =>
    match digitValue c with
    | none => none
    | some d => if d < base then digitsValue base (acc * base + d) rest else none

/-- One digit or more in a base. Leading zeros are accepted and add nothing: 0527 reads as 527. R69 does not say what such
text is, and R124 that BITMASK_FOR_NUM cannot be given one (DESIGN CHOICE, log entry 26). -/
def parseDigits (base : Nat) (text : List Char) : Option Nat :=
  if text = [] then none else digitsValue base 0 text

/-- "Numbers are decimal, or hexadecimal with `0x`." -/
def parseNat (text : List Char) : Option Nat :=
  match text with
  | '0' :: 'x' :: digits => parseDigits 16 digits
  | digits => parseDigits 10 digits

/-- A number with an optional minus sign. -/
def parseInt (text : List Char) : Option Int :=
  match text with
  | '-' :: digits => (parseNat digits).map fun n => -(n : Int)
  | digits => (parseNat digits).map fun n => (n : Int)

/-- `n / d` rounded to the nearest natural, ties to even. -/
def roundDiv (n d : Nat) : Nat :=
  let q := n / d
  let r := n % d
  if 2 * r > d ∨ (2 * r = d ∧ q % 2 = 1) then q + 1 else q

/-- The binary64 pattern nearest to `n / d`, ties to even, without its sign. `drop + 1074` is the exponent of the last
significand bit, never below binary64's least; a significand that rounds up to `2^53` carries into the exponent field. -/
def binary64OfRatio (n d : Nat) : Nat :=
  if n = 0 then 0
  else
    let scaled := n * 2 ^ 1074
    let log := (scaled / d).log2
    let drop := log - 52
    let q := roundDiv scaled (d * 2 ^ drop)
    let bits := if q < 2 ^ 52 then q else drop * 2 ^ 52 + q
    min bits 0x7FF0000000000000

/-- A decimal fraction with an optional exponent, unsigned: `mantissa * 10^exponent`. -/
def binary64OfDecimal (mantissa : Nat) (exponent : Int) : Nat :=
  if exponent < 0 then binary64OfRatio mantissa (10 ^ exponent.natAbs)
  else binary64OfRatio (mantissa * 10 ^ exponent.natAbs) 1

/-- The text up to the first character a test accepts, and the text after that character, if there is one. -/
def splitFirst (test : Char → Bool) : List Char → List Char × Option (List Char)
  | [] => ([], none)
  | c :: rest =>
    if test c then ([], some rest)
    else
      let parts := splitFirst test rest
      (c :: parts.1, parts.2)

/-- A decimal exponent with an optional sign. -/
def parseExponent (text : List Char) : Option Int :=
  match text with
  | '-' :: digits => (parseDigits 10 digits).map fun n => -(n : Int)
  | '+' :: digits => (parseDigits 10 digits).map fun n => (n : Int)
  | digits => (parseDigits 10 digits).map fun n => (n : Int)

/-- A decimal magnitude: digits, an optional fraction, an optional exponent. -/
def parseDecimalMagnitude (text : List Char) : Option Nat :=
  let parts := splitFirst (fun c => c == 'e' || c == 'E') text
  let exponent := match parts.2 with
    | none => some (0 : Int)
    | some e => parseExponent e
  let number := splitFirst (fun c => c == '.') parts.1
  let fraction := number.2.getD []
  match exponent, parseDigits 10 (number.1 ++ fraction) with
  | some e, some m => if number.1 = [] then none else some (binary64OfDecimal m (e - fraction.length))
  | _, _ => none

/-- An unsigned binary64 literal. R69 does not say what a hexadecimal one spells: here the numeric value of its digits, a
whole number and no bit pattern, so that 0x1E2 is 482 and its E is a digit (DESIGN CHOICE, log entry 26). -/
def parseMagnitude (text : List Char) : Option Nat :=
  match text with
  | '0' :: 'x' :: digits => (parseDigits 16 digits).map fun n => binary64OfRatio n 1
  | _ => parseDecimalMagnitude text

/-- A binary64 literal, with NaN and the infinities as 95_test_vectors.md writes them. -/
def parseBinary64 (text : List Char) : Option (BitVec 64) :=
  if text = "NaN".toList then some 0x7FF8000000000000
  else if text = "+inf".toList then some 0x7FF0000000000000
  else if text = "-inf".toList then some 0xFFF0000000000000
  else
    match text with
    | '-' :: magnitude => (parseMagnitude magnitude).map fun m => BitVec.ofNat 64 (2 ^ 63 + m)
    | magnitude => (parseMagnitude magnitude).map fun m => BitVec.ofNat 64 m

/-! ### Lines -/

/-- Without the spaces at both ends. -/
def trimSpaces (text : List Char) : List Char :=
  ((text.dropWhile (· == ' ')).reverse.dropWhile (· == ' ')).reverse

/-- The fields between commas, at least one. -/
def splitCommas : List Char → List (List Char)
  | [] => [[]]
  | c :: rest =>
    match splitCommas rest with
    | [] => [[c]]
    | field :: fields => if c = ',' then [] :: field :: fields else (c :: field) :: fields

/-- Every value of a list, or none. -/
def allSome {α : Type} : List (Option α) → Option (List α)
  | [] => some []
  | none :: _ => none
  | some a :: rest => (allSome rest).map (a :: ·)

/-- A list of naturals in square brackets, as 95_test_vectors.md writes it. -/
def parseNaturals (text : List Char) : Option (List Nat) :=
  match text with
  | '[' :: rest =>
    match rest.reverse with
    | ']' :: inside =>
      let inner := trimSpaces inside.reverse
      if inner = [] then some [] else allSome ((splitCommas inner).map fun f => parseNat (trimSpaces f))
    | _ => none
  | _ => none

/-- One operand of the given type. `pins` gives the host's pin names their identifiers. A number wider than its type
cannot be spelled (R67); the two widths that are the configuration's (R5) are `decode`'s to check. -/
def parseOperand (pins : List (String × PinId)) (ty : OperandType) (text : List Char) : Option Operand :=
  match ty with
  | .u8 => (parseNat text).bind fun n => if n < 256 then some (.u8 (BitVec.ofNat 8 n)) else none
  | .u16 => (parseNat text).bind fun n => if n < 65536 then some (.u16 (BitVec.ofNat 16 n)) else none
  | .natural => (parseNat text).map .natural
  | .naturals => (parseNaturals text).map .naturals
  | .boolean =>
    if text = "true".toList then some (.boolean true)
    else if text = "false".toList then some (.boolean false)
    else none
  | .glyph => (glyphNamed text).map .glyph
  | .integer => (parseInt text).map .integer
  | .precision => (parseNat text).map .precision
  | .binary64 => (parseBinary64 text).map .binary64
  | .pin => (pins.findSome? fun p => if p.1.toList == text then some p.2 else none).map .pin

/-- The operand fields of a command. A list operand holds commas of its own, so a command whose one operand is a list has
one field. -/
def operandFields (o : Opcode) (text : List Char) : List (List Char) :=
  let t := trimSpaces text
  if t = [] then []
  else if signature o = [.naturals] then [t]
  else (splitCommas t).map trimSpaces

/-- One line: the mnemonic, then the operands in R64's order; operands may be omitted from the right, and `decode` fills
in the defaults. -/
def assembleLine (pins : List (String × PinId)) (line : List Char) : Option PortUnit :=
  let text := trimSpaces line
  let parts := splitFirst (fun c => c == ' ') text
  match opcodeNamed parts.1 with
  | none => none
  | some o =>
    let fields := operandFields o (parts.2.getD [])
    let types := signature o
    if fields.length > types.length then none
    else (allSome ((types.zip fields).map fun f => parseOperand pins f.1 f.2)).map fun ops => .command (opcodeByte o) ops

/-- A program: one command per line. -/
def assembleProgram (pins : List (String × PinId)) (lines : List String) : Option (List PortUnit) :=
  allSome (lines.map fun l => assembleLine pins l.toList)

end Sys2Proof.Machine
end

