-- ==== Sys2Proof/Machine/Expand.lean ====
section
/-! DEFINITION. The pseudo-commands' exact expansions into other commands (30_encoding.md R70), and running a list of
instructions one after another. -/

namespace Sys2Proof.Machine

/-- R70's expansion of an instruction, for the seven commands that have one. -/
def expansion : Instr → Option (List Instr)
  | .sendChar pos g dot => some [.sendDigit pos (glyphCode g) dot]
  | .clear => some ((List.range 8).map fun d => .sendChar (d + 1) .blank false)
  | .fillZeros => some ((List.range 8).map fun d => .sendDigit (d + 1) 0x00 false)
  | .sendNop d => some [.sendWord (regWord 0x00 d)]
  | .setShutdown b => some [.sendWord (if b then 0x0C00 else 0x0C01)]
  | .setDisplayTest b => some [.sendWord (if b then 0x0F01 else 0x0F00)]
  | .setIntensity v => some [.sendWord (0x0A00 ||| BitVec.ofNat 16 (v.toNat / 16))]
  | .sendWord _ | .bitmaskFor _ | .bitmaskForNum _ | .isBcd _ | .setBcd _ | .setRaw _ => none
  | .sendDigit _ _ _ | .sendNumberInt _ | .sendNumberDec _ _ | .setScanLimit _ => none
  | .init _ _ _ _ _ | .fini => none
  | .noop _ | .digit1 _ | .digit2 _ | .digit3 _ | .digit4 _ | .digit5 _ | .digit6 _ | .digit7 _ | .digit8 _ => none
  | .decodeMode _ | .intensity _ | .scanLimit _ | .shutdown _ | .displayTest _ => none

/-- The instructions of a list in order, stopping at the first that does not answer a next state. -/
def runInstrs : List Instr → State → Result
  | [], s => .next s
  | i :: rest, s =>
    match exec i s with
    | .next t => runInstrs rest t
    | .fault r => .fault r
    | .refused r => .refused r

end Sys2Proof.Machine
end

