-- ==== Sys2Proof/Machine/Receiver.lean ====
section
/-! DEFINITION. The reference receiver (20_memory.md R45, R46): an observer that reads words back out of the pin trace, and
its register view. It is no part of the block and no field of State: everything here is a function of the traces. -/

namespace Sys2Proof.Machine

/-- The receiver: its shift register, the previous level of each line, and the received word trace `RWT` (R45). -/
structure Receiver where
  sr    : Word
  lines : Lines Level
  rwt   : List Word
  deriving DecidableEq, Repr

/-- The receiver before any entry. `SR` is "initially unknown" (R45): `sr0` is any value, and a claim holds for all. -/
def receiverStart (sr0 : Word) : Receiver where
  sr    := sr0
  lines := ⟨.unspecified, .unspecified, .unspecified⟩
  rwt   := []

/-- The bit on DIN at a clock edge. A DIN that was never set has no level; `unknown` then stands for it, any value
(log entry 16). -/
def sampledBit (unknown : Bool) : Level → Bool
  | .unspecified => unknown
  | .low => false
  | .high => true

/-- `((SR << 1) | bit)[15:0]` (R45). -/
def shiftIn (sr : Word) (bit : Bool) : Word := (sr <<< 1) ||| (BitVec.ofBool bit).zeroExtend 16

/-- A 0 to 1 edge: no edge is defined from an unspecified level (R45). -/
def risingEdge (before : Level) (lvl : Bool) : Bool := before == .low && lvl

/-- One entry of the pin trace at the receiver (R45). -/
def receiveCall (unknown : Bool) (r : Receiver) : PinCall → Receiver
  | .out _ => r
  | .set p lvl =>
    let rising := risingEdge (lineOf r.lines p) lvl
    let seen := { r with lines := putLine r.lines p (levelOf lvl) }
    match p with
    | .din => seen
    | .clk => if rising then { seen with sr := shiftIn r.sr (sampledBit unknown r.lines.din) } else seen
    | .load => if rising then { seen with rwt := r.rwt ++ [r.sr] } else seen

/-- Replaying a pin trace. -/
def receiveAll (unknown : Bool) (calls : List PinCall) (r : Receiver) : Receiver :=
  calls.foldl (receiveCall unknown) r

/-- The receiver after the whole pin trace of a state. -/
def receiverOf (unknown : Bool) (sr0 : Word) (s : State) : Receiver :=
  receiveAll unknown s.pt (receiverStart sr0)

/-- A register address whose write R46 defines: 0x0 applies nothing, and the view is not defined for 0xD and 0xE (U3). -/
def viewedAddress (a : BitVec 4) : Bool := a != 0x0 && a != 0xD && a != 0xE

/-- One latched word in the register view: `REG[w[11:8]] <- w[7:0]` (R46). -/
def applyWord (a : BitVec 4) (reg : Option Byte) (w : Word) : Option Byte :=
  if viewedAddress a && w.extractLsb' 8 4 == a then some (wordData w) else reg

/-- `REG[a]` after the words of a trace, in order; none where no word has written it (R46, U9 to U11). -/
def regView (ws : List Word) (a : BitVec 4) : Option Byte := ws.foldl (applyWord a) none

/-- What the chip shows for a BCD code (42_digit_encoder.md R142). -/
inductive Symbol where
  | decimal (n : Nat)
  | glyph (g : Glyph)
  deriving DecidableEq, Repr

/-- R142's table. -/
def symbolOf (code : BitVec 4) : Symbol :=
  if code = 0xA then .glyph .dash
  else if code = 0xB then .glyph .e
  else if code = 0xC then .glyph .h
  else if code = 0xD then .glyph .l
  else if code = 0xE then .glyph .p
  else if code = 0xF then .glyph .blank
  else .decimal code.toNat

/-- What a digit position shows: a symbol with the decimal point, or the literal segment byte (30_encoding.md R73). -/
inductive Shown where
  | symbol (s : Symbol) (point : Bool)
  | segments (b : Byte)
  deriving DecidableEq, Repr

/-- A digit register's byte under the mode of its digit (R73, R141, R142). -/
def shownByte (bcd : Bool) (data : Byte) : Shown :=
  if bcd then .symbol (symbolOf (data.extractLsb' 0 4)) (data.getLsbD 7) else .segments data

/-- What position `pos` (1 to 8) shows, once its register and the decode-mode register have been written: what the chip's
decoder makes of the digit register. Display test (0xF), shutdown (0xC), scan limit (0xB) and intensity (0xA) are left
aside, whatever those registers hold. After INIT the display-test state is any (R241, U10), so this is no claim that test
is off (DESIGN CHOICE, log entry 31). -/
def shownAt (ws : List Word) (pos : Nat) : Option Shown :=
  match regView ws 0x9, regView ws (BitVec.ofNat 4 pos) with
  | some mask, some data => some (shownByte (dmBit mask (pos - 1)) data)
  | _, _ => none

end Sys2Proof.Machine
end

