-- ==== Sys2Proof/Safety.lean ====
section
/-! DEFINITION. The terms claims are stated in: what a safe run is, the spec's own tables for words and pin calls
(40_serializer.md R102, 43_number_encoder.md R161 and R165, 70_reset_and_hazards.md R249), and the block's invariants. -/

namespace Sys2Proof.Machine

/-! ### Safe runs -/

/-- A state a command can run in: LIVE and not faulted (R222). -/
abbrev State.ready (s : State) : Prop := s.lc = .live ∧ s.fault = false

/-- "A faulted state is never a final state of a run" (60_exceptions.md R220): a safe run ends with `FAULT = 0`. -/
abbrev State.endsWell (s : State) : Prop := s.fault = false

/-- A run of instructions is safe from `s` if it completes and ends well. -/
def safeRun (is : List Instr) (s : State) : Prop :=
  ∃ t, runInstrs is s = .next t ∧ t.endsWell

/-- An instruction that hands the serializer a word of its own for the chip's decode-mode register: what R245 asks the
host not to do. -/
def bypassesDecodeMode : Instr → Bool
  | .sendWord w => w.extractLsb' 8 4 == 0x9
  | .decodeMode _ => true
  | _ => false

/-! ### Words and pin calls as the spec's tables give them -/

/-- Entry `k` of the 53 entries of one word (R102's table). -/
def wordEntry (w : Word) (k : Nat) : PinCall :=
  if k = 0 then .set .load false
  else if k < 49 then
    if k % 3 = 1 then .set .clk false
    else if k % 3 = 2 then .set .din (w.getLsbD (15 - (k - 2) / 3))
    else .set .clk true
  else if k = 49 then .set .clk false
  else if k = 50 then .set .load true
  else if k = 51 then .set .load false
  else .set .din false

/-- The 53 entries of one word (R102). -/
def wordPins (w : Word) : List PinCall := (List.range 53).map (wordEntry w)

/-- The pin calls of a list of words, in order (R47, R107). -/
def wordsPins (ws : List Word) : List PinCall := ws.flatMap wordPins

/-- The three lines low, as every emitted word leaves them (R103). -/
def linesLow : Lines Level := ⟨.low, .low, .low⟩

/-- All three pins configured as outputs (R33). -/
def allOutputs : Lines Bool := ⟨true, true, true⟩

/-- `s` after a command that emitted the words `ws`, at least one, left `DM = dm`, completed, and returned nothing. Every
other field is as before. -/
def afterWords (s : State) (ws : List Word) (dm : Byte) : State :=
  { s with
    dm := dm, lines := linesLow, wt := s.wt ++ ws, pt := s.pt ++ wordsPins ws, ci := s.ci + 1, result := none }

/-- `s` after a query that returned `r`: only `ci` advances (R120). -/
def afterQuery (s : State) (r : QueryResult) : State := { s with ci := s.ci + 1, result := some r }

/-- `s` after a ContractViolation (R220). -/
def afterViolation (s : State) (cause : Cause) (opcode : Byte) (operand : Nat) : State :=
  { s with fault := true, finfo := some ⟨cause, opcode, operand⟩ }

/-- One DIGIT word of a BCD-capable value, before the mode switch is counted: position and data byte. -/
abbrev DigitEntry := Nat × Byte

/-- The words of BCD digits sent in order from `DM = dm`: a raw digit costs one DECODE_MODE word, which carries the whole
register after the update, before its digit word (R140, R146). -/
def bcdWords : Byte → List DigitEntry → List Word
  | _, [] => []
  | dm, (pos, data) :: rest =>
    let after := dm ||| digitBit (pos - 1)
    (if dmBit dm (pos - 1) then [] else [regWord 0x09 after]) ++ regWord (BitVec.ofNat 8 pos) data :: bcdWords after rest

/-- `DM` after those words: the written positions' bits are 1. -/
def bcdMask (dm : Byte) (entries : List DigitEntry) : Byte :=
  entries.foldl (fun m e => m ||| digitBit (e.1 - 1)) dm

/-- The eight entries of CLEAR and FILL_ZEROS: one data byte at positions 1 to 8 (R144, R145). -/
def sameEverywhere (data : Byte) : List DigitEntry :=
  [(1, data), (2, data), (3, data), (4, data), (5, data), (6, data), (7, data), (8, data)]

/-- The decimal digits of `n`, least significant first; 0 has one digit (R161, R165). -/
def decimalDigits (n : Nat) : List Nat := if n = 0 then [0] else Nat.digits 10 n

/-- Digits at consecutive positions from `pos` up. -/
def placeDigits : Nat → List Nat → List DigitEntry
  | _, [] => []
  | pos, d :: rest => (pos, BitVec.ofNat 8 d) :: placeDigits (pos + 1) rest

/-- R161: the digits of `|n|` at positions `1..min(k, 8)`, then the dash iff `n < 0` and `k < 8`. -/
def intEntries (n : Int) : List DigitEntry :=
  let digits := decimalDigits n.natAbs
  placeDigits 1 (digits.take 8) ++ (if n < 0 ∧ digits.length < 8 then [(digits.length + 1, 0x0A)] else [])

/-- R165 (1): the fraction words. Padded, or for `fp = 0`, all `min(p, 8)` positions carry the digits of `fp`. -/
def fractionEntries (fracPad : Bool) (p fp : Nat) : List DigitEntry :=
  if fp = 0 ∨ fracPad then placeDigits 1 ((List.range (min p 8)).map fun j => fp / 10 ^ j % 10)
  else placeDigits 1 ((Nat.digits 10 fp).take (min p 8))

/-- R165 (2), (3): the integer words, the first with the dot. -/
def integerEntries (p ip : Nat) : List DigitEntry :=
  (p + 1, 0x80 ||| BitVec.ofNat 8 (ip % 10)) :: placeDigits (p + 2) (((decimalDigits ip).take (8 - p)).drop 1)

/-- R165: the digit words of SEND_NUMBER_DEC, with the dash of (4). -/
def decEntries (fracPad : Bool) (p : Nat) (parts : SplitParts) : List DigitEntry :=
  fractionEntries fracPad p parts.fp ++
    if p ≤ 7 then
      let m := min (decimalDigits parts.ip).length (8 - p)
      integerEntries p parts.ip ++ (if parts.neg ∧ p + m + 1 ≤ 8 then [(p + m + 1, 0x0A)] else [])
    else []

/-- R249's table: the least and the most words a completed command emits. A bare register word is one word. -/
def wordBounds : Instr → Nat × Nat
  | .bitmaskFor _ | .bitmaskForNum _ | .isBcd _ => (0, 0)
  | .sendDigit _ _ _ | .sendChar _ _ _ => (1, 2)
  | .clear | .fillZeros => (8, 16)
  | .sendNumberInt _ | .sendNumberDec _ _ => (1, 16)
  | .init _ _ _ _ _ => (12, 12)
  | .fini => (9, 17)
  | .sendWord _ | .setBcd _ | .setRaw _ | .setIntensity _ | .setScanLimit _ => (1, 1)
  | .setShutdown _ | .setDisplayTest _ | .sendNop _ => (1, 1)
  | .noop _ | .digit1 _ | .digit2 _ | .digit3 _ | .digit4 _ | .digit5 _ | .digit6 _ | .digit7 _ | .digit8 _ => (1, 1)
  | .decodeMode _ | .intensity _ | .scanLimit _ | .shutdown _ | .displayTest _ => (1, 1)

/-- The pin calls of a completed command beside its words': INIT's six (R202). -/
def configCalls : Instr → List PinCall
  | .init _ _ _ _ _ =>
    [.out .din, .set .din false, .out .clk, .set .clk false, .out .load, .set .load false]
  | _ => []

/-- The operand breaks the caller contract, with the FINFO R221 records for it. -/
def violation : Instr → Option FaultInfo
  | .isBcd d => if d > 7 then some ⟨.digitIndexRange, 0x03, d⟩ else none
  | .sendDigit pos _ _ => if pos < 1 ∨ pos > 8 then some ⟨.positionRange, 0x06, pos⟩ else none
  | .sendChar pos _ _ => if pos < 1 ∨ pos > 8 then some ⟨.positionRange, 0x07, pos⟩ else none
  | .sendNumberDec x _ => if f64NonFinite x then some ⟨.nonfiniteOperand, 0x09, x.toNat⟩ else none
  | _ => none

/-- The lifecycle state R20 asks for. -/
def neededLifecycle : Instr → Lifecycle
  | .init _ _ _ _ _ => .uninit
  | _ => .live

/-- The lifecycle state a completed command leaves (R20). -/
def leftLifecycle : Instr → Lifecycle
  | .fini => .destroyed
  | _ => .live

/-! ### Invariants -/

/-- The pin-order rules of R104 and R244 over a pin trace, from given line levels: DIN is written only while CLK is not
high; no DIN or CLK call lies inside a LOAD pulse; LOAD is raised only while CLK is not high. "While the clock is low" and
"LOAD is low" are read as "not high", so a line that has no level yet (before INIT, U1) breaks no rule: INIT's `(DIN, 0)`,
made while CLK is unspecified, counts as in order (DESIGN CHOICE, log entry 32). -/
def pinOrderOk : Lines Level → List PinCall → Bool
  | _, [] => true
  | l, .out _ :: rest => pinOrderOk l rest
  | l, .set .din b :: rest => l.clk != .high && l.load != .high && pinOrderOk { l with din := levelOf b } rest
  | l, .set .clk b :: rest => l.load != .high && pinOrderOk { l with clk := levelOf b } rest
  | l, .set .load b :: rest => (b == false || l.clk != .high) && pinOrderOk { l with load := levelOf b } rest

/-- Before INIT nothing has happened; after it the pins are outputs, the lines are low between commands (R24), and the
identifiers are held (R21). -/
def State.lifecycleOk (s : State) : Prop :=
  match s.lc with
  | .uninit =>
    s.dm = 0xFF ∧ s.lines = State.reset.lines ∧ s.dir = State.reset.dir ∧ s.wt = [] ∧ s.pt = [] ∧ s.pins = none ∧
      s.ci = 0 ∧ s.fault = false
  | .live | .destroyed => s.lines = linesLow ∧ s.dir = allOutputs ∧ s.pins.isSome = true

/-- Replaying the pin trace gives back the line levels and the word trace, whatever the receiver did not know (R27, R45,
R47). -/
def State.traceOk (s : State) : Prop :=
  ∀ unknown sr0, (receiverOf unknown sr0 s).lines = s.lines ∧ (receiverOf unknown sr0 s).rwt = s.wt

/-- `FINFO` is set exactly when `FAULT` is (R25), and names an operand that breaks its command's contract (R221). -/
def State.faultOk (s : State) : Prop :=
  match s.finfo with
  | none => s.fault = false
  | some f => s.fault = true ∧ ∃ i, violation i = some f

/-- After INIT the chip's decode-mode register holds `DM` (R245). -/
def State.coherent (s : State) : Prop := regView s.wt 0x9 = some s.dm

end Sys2Proof.Machine
end

