-- ==== Sys2Proof/WellFormed.lean ====
section
/-! DEFINITION. Well-formed instructions: operands no wider than the configuration spells, and the launch premise on the
three pin identifiers. The types already exclude every other operand that R67 says cannot be spelled. -/

namespace Sys2Proof

/-- The three pin identifiers differ (R21, decision D30). A premise of the host's: the block does not check it, so
neither `decode` nor `exec` reads this (log entry 18). -/
def distinctPins (din clk load : PinId) : Bool :=
  din != clk && din != load && clk != load

/-- A command of the given configuration can have these operands (R5, R64, R67 (4)). An out-of-range position is spelled,
and faults (R67 (2)). -/
def Instr.spellable (cfg : Config) : Instr → Bool
  | .sendNumberInt n => fitsSigned cfg.intW n
  | .sendNumberDec _ p => fitsUnsigned cfg.precW p
  | .sendWord _ | .bitmaskFor _ | .bitmaskForNum _ | .isBcd _ | .setBcd _ | .setRaw _ => true
  | .sendDigit _ _ _ | .sendChar _ _ _ => true
  | .setIntensity _ | .setScanLimit _ | .setShutdown _ | .setDisplayTest _ | .sendNop _ => true
  | .clear | .fillZeros | .init _ _ _ _ _ | .fini => true
  | .noop _ | .digit1 _ | .digit2 _ | .digit3 _ | .digit4 _ | .digit5 _ | .digit6 _ | .digit7 _ | .digit8 _ => true
  | .decodeMode _ | .intensity _ | .scanLimit _ | .shutdown _ | .displayTest _ => true

/-- INIT's launch premise; no other instruction has one. -/
def Instr.launchable : Instr → Bool
  | .init din clk load _ _ => distinctPins din clk load
  | .sendWord _ | .bitmaskFor _ | .bitmaskForNum _ | .isBcd _ | .setBcd _ | .setRaw _ => true
  | .sendDigit _ _ _ | .sendChar _ _ _ | .sendNumberInt _ | .sendNumberDec _ _ => true
  | .setIntensity _ | .setScanLimit _ | .setShutdown _ | .setDisplayTest _ | .sendNop _ => true
  | .clear | .fillZeros | .fini => true
  | .noop _ | .digit1 _ | .digit2 _ | .digit3 _ | .digit4 _ | .digit5 _ | .digit6 _ | .digit7 _ | .digit8 _ => true
  | .decodeMode _ | .intensity _ | .scanLimit _ | .shutdown _ | .displayTest _ => true

/-- Well-formedness of an instruction under a configuration. -/
def Instr.wf (cfg : Config) (i : Instr) : Bool := i.spellable cfg && i.launchable

end Sys2Proof
end

