-- ==== Sys2Proof/Certificates/Slice0/Obligations.lean ====
section
/-! DEFINITION. The statements for the provers. `afterWords`, `afterQuery` and `afterViolation` (Safety.lean) name a whole
next state, so an equation with one of them says the result, the completion and the frame at once. -/

open Sys2Proof Sys2Proof.Machine

/-! ### Serializer (40_serializer.md) -/

/-- R100. In a LIVE, unfaulted block any word is sent as given: its 53 entries, the word, the lines low, `ci + 1`, and
nothing else. Otherwise the command is refused. Its opcode is 0x00. -/
def Obligations.SendWordSendsAnyWordAsGiven : Prop :=
  ∀ (s : State) (w : Word),
    (s.ready → exec (.sendWord w) s = .next (afterWords s [w] s.dm)) ∧
    (s.fault = true → exec (.sendWord w) s = .refused .faulted) ∧
    (s.fault = false → s.lc ≠ .live → exec (.sendWord w) s = .refused (.lifecycle s.lc)) ∧
    decode s.cfg (.command 0x00 [.u16 w]) = .ok (.sendWord w)

/-- R101. `emitWord` makes R101's calls in R101's order, one entry each, then records the word; the lines end low and
nothing else changes. -/
def Obligations.EmitWordMakesItsPinCallsInOrder : Prop :=
  ∀ (w : Word) (s : State),
    emitWord w s =
      { s with
        lines := ⟨.low, .low, .low⟩
        pt := s.pt ++ ([.set .load false] ++
          ([15, 14, 13, 12, 11, 10, 9, 8, 7, 6, 5, 4, 3, 2, 1, 0].flatMap fun i =>
            [.set .clk false, .set .din (w.getLsbD i), .set .clk true]) ++
          [.set .clk false, .set .load true, .set .load false, .set .din false])
        wt := s.wt ++ [w] }

/-- R102 (derived there). The table of the 53 entries, by index. -/
def Obligations.WordHasItsFiftyThreeEntries : Prop :=
  ∀ (w : Word) (s : State),
    (emitWord w s).pt.length = s.pt.length + 53 ∧
    (∀ k < 16,
      (emitWord w s).pt[s.pt.length + (1 + 3 * k)]? = some (.set .clk false) ∧
      (emitWord w s).pt[s.pt.length + (2 + 3 * k)]? = some (.set .din (w.getLsbD (15 - k))) ∧
      (emitWord w s).pt[s.pt.length + (3 + 3 * k)]? = some (.set .clk true)) ∧
    (emitWord w s).pt[s.pt.length]? = some (.set .load false) ∧
    (emitWord w s).pt[s.pt.length + 49]? = some (.set .clk false) ∧
    (emitWord w s).pt[s.pt.length + 50]? = some (.set .load true) ∧
    (emitWord w s).pt[s.pt.length + 51]? = some (.set .load false) ∧
    (emitWord w s).pt[s.pt.length + 52]? = some (.set .din false)

/-- R104 (derived there). The protocol rules over one word's entries, from any line levels: DIN moves only while the clock
is not high, no DIN or CLK entry lies inside the LOAD pulse, sixteen clock pulses, one LOAD pulse. -/
def Obligations.WordKeepsThePinProtocol : Prop :=
  ∀ (w : Word) (s : State) (levels : Lines Level),
    ∃ calls, (emitWord w s).pt = s.pt ++ calls ∧ pinOrderOk levels calls = true ∧
      calls.count (.set .clk true) = 16 ∧ calls.count (.set .load true) = 1 ∧
      (calls.take 50).count (.set .load true) = 0

/-- R105 (derived there). Replaying the pin trace, the receiver latches exactly the word, whatever it held and knew. -/
def Obligations.ReceiverLatchesTheEmittedWord : Prop :=
  ∀ (unknown : Bool) (sr0 : Word) (w : Word) (s : State),
    receiverOf unknown sr0 (emitWord w s) = ⟨w, ⟨.low, .low, .low⟩, (receiverOf unknown sr0 s).rwt ++ [w]⟩

/-! ### Decode-mode register file (41_decode_mode.md) -/

/-- R120 (decision D19 for entries above 7). The mask has bit `j` exactly when `j` is listed; only `ci` advances. -/
def Obligations.BitmaskForSetsTheListedBits : Prop :=
  ∀ (s : State) (ds : List Nat), s.ready →
    ∃ m : Byte, exec (.bitmaskFor ds) s = .next (afterQuery s (.mask m)) ∧ ∀ j < 8, m.getLsbD j = decide (j ∈ ds)

/-- R124 (decision D19 for 0). The mask has bit `j` exactly when `j` is a decimal digit of `n`; 0 has the digit 0. -/
def Obligations.BitmaskForNumSetsTheDigitsBits : Prop :=
  ∀ (s : State) (n : Nat), s.ready →
    ∃ m : Byte, exec (.bitmaskForNum n) s = .next (afterQuery s (.mask m)) ∧
      ∀ j < 8, m.getLsbD j = if n = 0 then decide (j = 0) else decide (j ∈ Nat.digits 10 n)

/-- R121 (decision D31). A legal index reads one bit of `DM`; an index above 7 is a ContractViolation, code 2. -/
def Obligations.IsBcdReadsOneBitOrFaults : Prop :=
  ∀ (s : State) (d : Nat), s.ready →
    (d ≤ 7 → exec (.isBcd d) s = .next (afterQuery s (.bcd (s.dm.getLsbD d)))) ∧
    (7 < d → exec (.isBcd d) s = .next (afterViolation s .digitIndexRange 0x03 d))

/-- R122, R123 (decision D20). `DM` is ORed, or AND-NOTed, with the mask, and its whole new value is sent to 0x9, always. -/
def Obligations.SetBcdAndSetRawWriteAndSendTheRegister : Prop :=
  ∀ (s : State) (m : Byte), s.ready →
    exec (.setBcd m) s = .next (afterWords s [0x09#8 ++ (s.dm ||| m)] (s.dm ||| m)) ∧
    exec (.setRaw m) s = .next (afterWords s [0x09#8 ++ (s.dm &&& ~~~m)] (s.dm &&& ~~~m))

/-- R126 (derived there). The round trip of a mask through the register. -/
def Obligations.SetThenIsBcdRoundTrip : Prop :=
  ∀ (s : State) (m : Byte) (d : Nat), s.ready → d < 8 →
    ∃ t u, exec (.setBcd m) s = .next t ∧ exec (.setRaw m) s = .next u ∧
      exec (.isBcd d) t = .next (afterQuery t (.bcd (if m.getLsbD d then true else s.dm.getLsbD d))) ∧
      exec (.isBcd d) u = .next (afterQuery u (.bcd (if m.getLsbD d then false else s.dm.getLsbD d)))

/-! ### Digit encoder (42_digit_encoder.md) -/

/-- R140 (decision D27). A value up to 15: the digit goes to BCD first if it was raw, and the dot is bit 7. -/
def Obligations.SendDigitOfABcdValue : Prop :=
  ∀ (s : State) (pos : Nat) (v : Byte) (dot : Bool), s.ready → 1 ≤ pos → pos ≤ 8 → v.toNat ≤ 15 →
    exec (.sendDigit pos v dot) s =
      .next
        (if s.dm.getLsbD (pos - 1) then
          afterWords s [BitVec.ofNat 8 pos ++ (v ||| (if dot then 0x80#8 else 0x00#8))] s.dm
        else
          afterWords s
            [0x09#8 ++ (s.dm ||| 1#8 <<< (pos - 1)), BitVec.ofNat 8 pos ++ (v ||| (if dot then 0x80#8 else 0x00#8))]
            (s.dm ||| 1#8 <<< (pos - 1)))

/-- R140 (decision D27). A value above 15: the digit goes to raw first if it was BCD, and the dot is ignored. -/
def Obligations.SendDigitOfARawValue : Prop :=
  ∀ (s : State) (pos : Nat) (v : Byte) (dot : Bool), s.ready → 1 ≤ pos → pos ≤ 8 → 15 < v.toNat →
    exec (.sendDigit pos v dot) s =
      .next
        (if s.dm.getLsbD (pos - 1) then
          afterWords s [0x09#8 ++ (s.dm &&& ~~~(1#8 <<< (pos - 1))), BitVec.ofNat 8 pos ++ v]
            (s.dm &&& ~~~(1#8 <<< (pos - 1)))
        else afterWords s [BitVec.ofNat 8 pos ++ v] s.dm)

/-- R140, R143, R220, R221 (decision D5). A position outside 1 to 8 is a ContractViolation, code 1, with the issued
command's opcode: no word, no pin call, no change of `DM`, `ci` unchanged. -/
def Obligations.IllegalPositionFaultsBeforeAnyEffect : Prop :=
  ∀ (s : State) (pos : Nat) (v : Byte) (g : Glyph) (dot : Bool), s.ready → pos = 0 ∨ 8 < pos →
    exec (.sendDigit pos v dot) s = .next (afterViolation s .positionRange 0x06 pos) ∧
    exec (.sendChar pos g dot) s = .next (afterViolation s .positionRange 0x07 pos)

/-- R143, R64, R69 (decisions D2, D27; log entry 9 for the decoder filling in the omitted `dot`, the model's own choice).
SEND_CHAR is SEND_DIGIT with the glyph's code, 0xA to 0xF in the order dash, E, H, L, P, blank; only a fault records its own
opcode. Its opcode is 0x07, and `dot` is false where it is omitted. -/
def Obligations.SendCharIsSendDigitOfTheGlyphCode : Prop :=
  ∀ (s : State) (pos : Nat) (g : Glyph) (dot : Bool),
    let code : Byte := match g with | .dash => 0x0A | .e => 0x0B | .h => 0x0C | .l => 0x0D | .p => 0x0E | .blank => 0x0F
    (1 ≤ pos → pos ≤ 8 → exec (.sendChar pos g dot) s = exec (.sendDigit pos code dot) s) ∧
    (s.ready → 1 ≤ pos → pos ≤ 8 →
      exec (.sendChar pos g dot) s =
        .next
          (if s.dm.getLsbD (pos - 1) then
            afterWords s [BitVec.ofNat 8 pos ++ (code ||| (if dot then 0x80#8 else 0x00#8))] s.dm
          else
            afterWords s
              [0x09#8 ++ (s.dm ||| 1#8 <<< (pos - 1)),
                BitVec.ofNat 8 pos ++ (code ||| (if dot then 0x80#8 else 0x00#8))]
              (s.dm ||| 1#8 <<< (pos - 1)))) ∧
    (s.ready → pos = 0 ∨ 8 < pos → exec (.sendChar pos g dot) s = .next (afterViolation s .positionRange 0x07 pos)) ∧
    (s.fault = true → exec (.sendChar pos g dot) s = .refused .faulted) ∧
    (s.fault = false → s.lc ≠ .live → exec (.sendChar pos g dot) s = .refused (.lifecycle s.lc)) ∧
    decode s.cfg (.command 0x07 [.natural pos, .glyph g, .boolean dot]) = .ok (.sendChar pos g dot) ∧
    decode s.cfg (.command 0x07 [.natural pos, .glyph g]) = .ok (.sendChar pos g false)

/-- R144, R145 (decision D11). CLEAR and FILL_ZEROS write the blank code, or zero, at positions 1 to 8 ascending, each raw
digit switched to BCD first; `DM` ends at 0xFF. With every digit in BCD mode these are exactly eight words. -/
def Obligations.ClearAndFillZerosWriteEveryPosition : Prop :=
  ∀ (s : State), s.ready →
    exec .clear s = .next (afterWords s (bcdWords s.dm (sameEverywhere 0x0F)) 0xFF) ∧
    exec .fillZeros s = .next (afterWords s (bcdWords s.dm (sameEverywhere 0x00)) 0xFF) ∧
    (s.dm = 0xFF →
      exec .clear s =
        .next (afterWords s [0x010F, 0x020F, 0x030F, 0x040F, 0x050F, 0x060F, 0x070F, 0x080F] 0xFF) ∧
      exec .fillZeros s =
        .next (afterWords s [0x0100, 0x0200, 0x0300, 0x0400, 0x0500, 0x0600, 0x0700, 0x0800] 0xFF))

/-! ### Number encoder (43_number_encoder.md) -/

/-- R160, R161 (decision D12). The decimal digits of the exact magnitude, least significant first, at positions 1 up, at
most eight, then the dash iff negative and a position is free; for an operand of any `INT_W`. -/
def Obligations.SendNumberIntSendsTheDecimalDigits : Prop :=
  ∀ (s : State) (n : Int), s.ready →
    exec (.sendNumberInt n) s =
      .next (afterWords s (bcdWords s.dm (intEntries n)) (bcdMask s.dm (intEntries n)))

/-- R162, R165 (decisions D13 to D17). For a finite operand: the fraction digits, the dot-flagged digit at `p + 1`, the
higher integer digits and the dash, for whatever `SPLIT` gives, under either `FRAC_PAD`. -/
def Obligations.SendNumberDecSendsFractionThenInteger : Prop :=
  ∀ (s : State) (x : BitVec 64) (p : Nat), s.ready → (x.extractLsb' 52 11).toNat ≠ 2047 →
    let entries := decEntries s.cfg.fracPad p (splitDecimal s.cfg x p)
    exec (.sendNumberDec x p) s = .next (afterWords s (bcdWords s.dm entries) (bcdMask s.dm entries))

/-- R162, R221 (decision D13). NaN and the infinities are a ContractViolation, code 3, that records the operand's bits. -/
def Obligations.NonfiniteOperandFaults : Prop :=
  ∀ (s : State) (x : BitVec 64) (p : Nat), s.ready → (x.extractLsb' 52 11).toNat = 2047 →
    exec (.sendNumberDec x p) s = .next (afterViolation s .nonfiniteOperand 0x09 x.toNat)

/-- R163 (decision D13, log entry 14 for the binary64 layout). Whatever the split, `neg` is `x < 0` and `ip` is the exact
integer part of `|x|`, for every finite `x`; and `f64FracNumerator` is the exact fraction part over `2^f64PointBits`. -/
def Obligations.SplitHasExactSignAndIntegerPart : Prop :=
  ∀ (cfg : Config) (x : BitVec 64) (p : Nat), (x.extractLsb' 52 11).toNat ≠ 2047 →
    let e := (x.extractLsb' 52 11).toNat
    let f := (x.extractLsb' 0 52).toNat
    let magnitude : ℚ :=
      if e = 0 then (f : ℚ) * (2 : ℚ) ^ (-1074 : ℤ) else ((2 : ℚ) ^ (52 : ℤ) + f) * (2 : ℚ) ^ ((e : ℤ) - 1075)
    ((splitDecimal cfg x p).neg = true ↔ x.getLsbD 63 = true ∧ magnitude ≠ 0) ∧
    (splitDecimal cfg x p).ip = ⌊magnitude⌋₊ ∧
    (f64FracNumerator x : ℚ) / 2 ^ f64PointBits x = magnitude - (splitDecimal cfg x p).ip

/-- R163 (decision D13; the free values are the model's, log entry 13). The fraction value: `SPLIT64`'s one rounded
multiply for `p ≤ 22`, `SPLIT_HI` above it, a substituted split's own value otherwise. -/
def Obligations.SplitFractionFollowsTheConfiguredSplit : Prop :=
  ∀ (cfg : Config) (x : BitVec 64) (p : Nat),
    (cfg.split = .split64 → p ≤ 22 →
      (splitDecimal cfg x p).fp = rne64 (f64FracNumerator x * 10 ^ p) / 2 ^ f64PointBits x) ∧
    (cfg.split = .split64 → 22 < p → (splitDecimal cfg x p).fp = Config.splitHi x p) ∧
    (cfg.split = .substituted → (splitDecimal cfg x p).fp = Config.splitSubstituted x p)

/-- R163's `RNE64` (log entry 14). The rounded numerator is a 53-bit significand times a power of two, at most half a unit
away from the exact one, even on a tie, and equal to it when it already has at most 53 bits. -/
def Obligations.RoundingIsToNearestEven : Prop :=
  ∀ n : Nat, ∃ q drop : Nat,
    rne64 n = q * 2 ^ drop ∧ q ≤ 2 ^ 53 ∧
    2 * ((rne64 n : ℤ) - n).natAbs ≤ 2 ^ drop ∧
    (2 * ((rne64 n : ℤ) - n).natAbs = 2 ^ drop → q % 2 = 0) ∧
    (0 < drop → 2 ^ (52 + drop) ≤ n ∧ n < 2 ^ (53 + drop)) ∧
    (n < 2 ^ 53 → rne64 n = n)

/-- R165 (5) (derived there). Under `SPLIT64` with `p ≤ 22` the fraction value has at most `p` digits. -/
def Obligations.SplitFractionHasAtMostPDigits : Prop :=
  ∀ (cfg : Config) (x : BitVec 64) (p : Nat), cfg.split = .split64 → p ≤ 22 →
    (splitDecimal cfg x p).fp < 10 ^ p

/-- R162, R165 (2) (decision D17; derived there). Of the words SEND_NUMBER_DEC of a finite operand appends to `WT`, the digit
words stand at strictly ascending positions within 1 to 8, and the only one with the dot is the word at `p + 1`, the integer
part's low digit, which is there exactly for `p ≤ 7`; every other word is a DECODE_MODE word. -/
def Obligations.DecimalPointStandsOnceAtPPlusOne : Prop :=
  ∀ (s : State) (x : BitVec 64) (p : Nat), s.ready → (x.extractLsb' 52 11).toNat ≠ 2047 →
    ∃ t ws, exec (.sendNumberDec x p) s = .next t ∧ t.wt = s.wt ++ ws ∧
      let digitWords := ws.filter fun w => 1 ≤ (wordAddr w).toNat && (wordAddr w).toNat ≤ 8
      digitWords.Pairwise (fun v w => (wordAddr v).toNat < (wordAddr w).toNat) ∧
      digitWords.filter (fun w => w.getLsbD 7) =
        (if p ≤ 7 then [BitVec.ofNat 8 (p + 1) ++ (0x80#8 ||| BitVec.ofNat 8 ((splitDecimal s.cfg x p).ip % 10))]
        else []) ∧
      ∀ w ∈ ws, w ∉ digitWords → wordAddr w = 0x09

/-! ### One-word chip control (44_chip_control.md) -/

/-- R180. Intensity is the operand divided by 16, at address 0xA. INIT's call of it makes no check. -/
def Obligations.SetIntensitySendsTheBucket : Prop :=
  ∀ (s : State) (v : Byte),
    (s.ready → exec (.setIntensity v) s = .next (afterWords s [0x0A#8 ++ BitVec.ofNat 8 (v.toNat / 16)] s.dm)) ∧
    (s.fault = true → exec (.setIntensity v) s = .refused .faulted) ∧
    (s.fault = false → s.lc ≠ .live → exec (.setIntensity v) s = .refused (.lifecycle s.lc)) ∧
    setIntensity v s = emitWord (0x0A#8 ++ BitVec.ofNat 8 (v.toNat / 16)) s ∧
    decode s.cfg (.command 0x0A [.u8 v]) = .ok (.setIntensity v)

/-- R181 (decisions D6, D7; conflict C1). The scan limit in both modes; for 1 to 8 they send the same word. -/
def Obligations.SetScanLimitInBothModes : Prop :=
  ∀ (s : State) (sl : Byte), s.ready →
    (s.cfg.scanLimitMode = .clamped →
      exec (.setScanLimit sl) s =
        .next (afterWords s [0x0B#8 ++ BitVec.ofNat 8 (min (max sl.toNat 1) 8 - 1)] s.dm)) ∧
    (s.cfg.scanLimitMode = .literal →
      exec (.setScanLimit sl) s =
        .next (afterWords s [0x0B#8 ++ BitVec.ofNat 8 ((sl.toNat + 255) % 256)] s.dm)) ∧
    (1 ≤ sl.toNat → sl.toNat ≤ 8 →
      exec (.setScanLimit sl) s = .next (afterWords s [0x0B#8 ++ BitVec.ofNat 8 (sl.toNat - 1)] s.dm))

/-- R182. Shutdown is inverted: `true` sends 0, `false` sends 1, at address 0xC. INIT's and FINI's calls of it make no
check. -/
def Obligations.SetShutdownIsInverted : Prop :=
  ∀ (s : State),
    (s.ready → exec (.setShutdown true) s = .next (afterWords s [0x0C00] s.dm)) ∧
    (s.ready → exec (.setShutdown false) s = .next (afterWords s [0x0C01] s.dm)) ∧
    (∀ b, s.fault = true → exec (.setShutdown b) s = .refused .faulted) ∧
    (∀ b, s.fault = false → s.lc ≠ .live → exec (.setShutdown b) s = .refused (.lifecycle s.lc)) ∧
    setShutdown true s = emitWord 0x0C00 s ∧ setShutdown false s = emitWord 0x0C01 s ∧
    ∀ b, decode s.cfg (.command 0x0C [.boolean b]) = .ok (.setShutdown b)

/-- R183, R184 (decisions D8, D9). Display test at 0xF, and the no-op word at 0x0 with its byte as given. -/
def Obligations.DisplayTestAndNopSendTheirWords : Prop :=
  ∀ (s : State) (d : Byte), s.ready →
    exec (.setDisplayTest true) s = .next (afterWords s [0x0F01] s.dm) ∧
    exec (.setDisplayTest false) s = .next (afterWords s [0x0F00] s.dm) ∧
    exec (.sendNop d) s = .next (afterWords s [0x00#8 ++ d] s.dm)

/-! ### Lifecycle (45_lifecycle.md) -/

/-- R200 to R202 (decisions D10, D18, D30). INIT in UNINIT: the six configuration calls, the twelve words, `DM = 0xFF`,
all pins outputs and low, the identifiers held, LIVE. -/
def Obligations.InitRunsItsFixedSequence : Prop :=
  ∀ (s : State) (din clk load : PinId) (sl it : Byte), s.lc = .uninit → s.fault = false →
    let words : List Word :=
      [0x0B#8 ++ scanData s.cfg.scanLimitMode sl, 0x0A#8 ++ BitVec.ofNat 8 (it.toNat / 16), 0x09FF,
        0x010F, 0x020F, 0x030F, 0x040F, 0x050F, 0x060F, 0x070F, 0x080F, 0x0C01]
    let config : List PinCall :=
      [.out .din, .set .din false, .out .clk, .set .clk false, .out .load, .set .load false]
    exec (.init din clk load sl it) s =
      .next
        { s with
          lc := .live, dm := 0xFF, lines := ⟨.low, .low, .low⟩, dir := ⟨true, true, true⟩, wt := s.wt ++ words
          pt := s.pt ++ config ++ wordsPins words, ci := s.ci + 1, pins := some ⟨din, clk, load⟩, result := none }

/-- R203 (decisions D4, D26). FINI clears the display, shuts the chip down, and ends the instance; the pins stay outputs. -/
def Obligations.FiniClearsAndShutsDown : Prop :=
  ∀ (s : State), s.ready →
    exec .fini s =
      .next { afterWords s (bcdWords s.dm (sameEverywhere 0x0F) ++ [0x0C00]) 0xFF with lc := .destroyed }

/-! ### Register words (30_encoding.md R72 to R78) -/

/-- The words a bare register word sends (the model's choice of their meaning: log entry 7; R72 to R78, R100). Each of the
fourteen rows sends its own word as given and changes nothing else. -/
def Obligations.BareRegisterWordsAreSentAsGiven : Prop :=
  ∀ (s : State) (d : Byte), s.ready →
    exec (.noop d) s = .next (afterWords s [0x00#8 ++ d] s.dm) ∧
    exec (.digit1 d) s = .next (afterWords s [0x01#8 ++ d] s.dm) ∧
    exec (.digit2 d) s = .next (afterWords s [0x02#8 ++ d] s.dm) ∧
    exec (.digit3 d) s = .next (afterWords s [0x03#8 ++ d] s.dm) ∧
    exec (.digit4 d) s = .next (afterWords s [0x04#8 ++ d] s.dm) ∧
    exec (.digit5 d) s = .next (afterWords s [0x05#8 ++ d] s.dm) ∧
    exec (.digit6 d) s = .next (afterWords s [0x06#8 ++ d] s.dm) ∧
    exec (.digit7 d) s = .next (afterWords s [0x07#8 ++ d] s.dm) ∧
    exec (.digit8 d) s = .next (afterWords s [0x08#8 ++ d] s.dm) ∧
    exec (.decodeMode d) s = .next (afterWords s [0x09#8 ++ d] s.dm) ∧
    exec (.intensity d) s = .next (afterWords s [0x0A#8 ++ d] s.dm) ∧
    exec (.scanLimit d) s = .next (afterWords s [0x0B#8 ++ d] s.dm) ∧
    exec (.shutdown d) s = .next (afterWords s [0x0C#8 ++ d] s.dm) ∧
    exec (.displayTest d) s = .next (afterWords s [0x0F#8 ++ d] s.dm)

/-- R46, R72 (presumed there and in log entry 17: the high nibble of the address is ignored, and 0xD and 0xE hold nothing). In
the receiver's view a word writes the register its address names and no other; a no-op word writes none. -/
def Obligations.WordWritesItsRegisterOnly : Prop :=
  ∀ (ws : List Word) (addr data : Byte) (a : BitVec 4),
    regView (ws ++ [addr ++ data]) a =
      if a = addr.extractLsb' 0 4 ∧ a ≠ 0x0 ∧ a ≠ 0xD ∧ a ≠ 0xE then some data else regView ws a

/-! ### Faults and refusals (60_exceptions.md) -/

/-- R222 (3), R25 (decision D5). While `FAULT = 1` every instruction is refused, before its lifecycle check. -/
def Obligations.FaultRefusesEveryInstruction : Prop :=
  ∀ (i : Instr) (s : State), s.fault = true → exec i s = .refused .faulted

/-- R222 (2), R20, R204 (decision D4). INIT runs only in UNINIT, everything else only in LIVE; otherwise a refusal. -/
def Obligations.LifecycleRefusesTheRest : Prop :=
  ∀ (i : Instr) (s : State), s.fault = false →
    (match i with | .init _ _ _ _ _ => s.lc ≠ .uninit | _ => s.lc ≠ .live) → exec i s = .refused (.lifecycle s.lc)

/-- R222 (1), R67 (1) (decision D5). A reserved opcode is refused before anything else is checked. -/
def Obligations.ReservedOpcodesAreRefusedFirst : Prop :=
  ∀ (s : State) (b : Byte) (operands : List Operand), s.prog[s.ci]? = some (.command b operands) → 0x13 ≤ b.toNat →
    step s = .refused (.reservedOpcode b)

/-- R220, R221 (decisions D5, D13, D31). A step that ends with `FAULT = 1` is a ContractViolation of R221's table, and sets
`FAULT` and `FINFO` and nothing else. -/
def Obligations.OnlyContractViolationsFault : Prop :=
  ∀ (i : Instr) (s t : State), exec i s = .next t → t.fault = true →
    (∃ d, 7 < d ∧ i = .isBcd d ∧ t = afterViolation s .digitIndexRange 0x03 d) ∨
    (∃ pos v dot, (pos < 1 ∨ 8 < pos) ∧ i = .sendDigit pos v dot ∧ t = afterViolation s .positionRange 0x06 pos) ∨
    (∃ pos g dot, (pos < 1 ∨ 8 < pos) ∧ i = .sendChar pos g dot ∧ t = afterViolation s .positionRange 0x07 pos) ∨
    (∃ x p, f64NonFinite x = true ∧ i = .sendNumberDec x p ∧ t = afterViolation s .nonfiniteOperand 0x09 x.toNat)

/-- R25, R29, R220 (decision D5). After a step that set `FAULT`, the next step has none: the same command is refused. -/
def Obligations.BlockStopsAfterAFault : Prop :=
  ∀ (s t : State), step s = .next t → t.fault = true → step t = .refused .faulted

/-- R24, R106 (log entry 5 for the unspecified level as a value). A line read faults exactly while the line's level is
unspecified: before INIT every line read does, and past UNINIT, between commands, none does and each gives 0. No step ever
answers a fault. -/
def Obligations.LineReadsFaultOnlyBeforeInit : Prop :=
  (∀ (s : State) (p : Line), readLine s p = .error (.lineUnspecified p) ↔ lineOf s.lines p = .unspecified) ∧
  (∀ (s : State) (p : Line), s.lifecycleOk → s.lc = .uninit → readLine s p = .error (.lineUnspecified p)) ∧
  (∀ (s : State) (p : Line), s.lifecycleOk → s.lc ≠ .uninit → readLine s p = .ok false) ∧
  (∀ (s : State) (r : Fault), step s ≠ .fault r)

/-! ### The machine as a whole -/

/-- R29, R222. A step fetches index `ci`, decodes, and runs exactly the decoded instruction on the same state. -/
def Obligations.StepRunsTheDecodedInstruction : Prop :=
  ∀ (s : State) (u : PortUnit) (i : Instr), s.prog[s.ci]? = some u → decode s.cfg u = .ok i → step s = exec i s

/-- R240, R33 (decision D37). The spec's fields of the state right after reset. -/
def Obligations.ResetStateIsAsSpecified : Prop :=
  State.reset.lc = .uninit ∧ State.reset.dm = 0xFF ∧ State.reset.fault = false ∧ State.reset.finfo = none ∧
  State.reset.wt = [] ∧ State.reset.pt = [] ∧ State.reset.ci = 0 ∧
  (∀ p, lineOf State.reset.lines p = .unspecified) ∧ (∀ p, lineOf State.reset.dir p = false)

/-- R29, R220 (decision D3). A completed step advances `ci` by exactly 1; a fault leaves it. -/
def Obligations.IndexAdvancesByOneOrFaults : Prop :=
  ∀ (s t : State), step s = .next t →
    (t.ci = s.ci + 1 ∧ t.fault = false ∧ t.finfo = s.finfo) ∨ (t.ci = s.ci ∧ t.fault = true)

/-- R20 (decision D4). The lifecycle state changes only by INIT, from UNINIT to LIVE, and by FINI, from LIVE to DESTROYED. -/
def Obligations.LifecycleMovesOnlyByInitAndFini : Prop :=
  ∀ (i : Instr) (s t : State), exec i s = .next t → t.lc ≠ s.lc →
    (s.lc = .uninit ∧ t.lc = .live ∧ ∃ din clk load sl it, i = .init din clk load sl it) ∨
    (s.lc = .live ∧ t.lc = .destroyed ∧ i = .fini)

/-- R22, R61. `DM` changes only by SET_BCD and SET_RAW, on their own or inside the listed commands. -/
def Obligations.DecodeModeHasOnlyItsWriters : Prop :=
  ∀ (i : Instr) (s t : State), exec i s = .next t → t.dm ≠ s.dm →
    match i with
    | .setBcd _ | .setRaw _ | .sendDigit _ _ _ | .sendChar _ _ _ | .sendNumberInt _ | .sendNumberDec _ _
    | .clear | .fillZeros | .init _ _ _ _ _ | .fini => True
    | _ => False

/-- R11, R21, R50. No step changes the parameters or the host's commands, and only INIT gives the pin identifiers. -/
def Obligations.ParametersNeverChange : Prop :=
  (∀ (s t : State), step s = .next t → t.cfg = s.cfg ∧ t.prog = s.prog) ∧
  (∀ (i : Instr) (s t : State), exec i s = .next t → t.pins ≠ s.pins ∨ t.dir ≠ s.dir →
    ∃ din clk load sl it, i = .init din clk load sl it)

/-- R63 (derived there). Every instruction but SEND_WORD forms only the addresses 0x0 to 0xC and 0xF. -/
def Obligations.OnlySendWordFormsUnnamedAddresses : Prop :=
  ∀ (i : Instr) (s t : State), exec i s = .next t → (∀ w, i ≠ .sendWord w) →
    ∀ w ∈ t.wt.drop s.wt.length, (w.extractLsb' 8 8).toNat ≤ 0x0C ∨ w.extractLsb' 8 8 = 0x0F

/-- R249 (derived there; a bare register word counts as one word, log entry 7). A completed instruction appends between
R249's least and most words, and 53 pin calls for each, with INIT's six beside. -/
def Obligations.EveryCommandDoesBoundedWork : Prop :=
  ∀ (i : Instr) (s t : State), exec i s = .next t → t.fault = false →
    ∃ ws calls, t.wt = s.wt ++ ws ∧ t.pt = s.pt ++ calls ∧
      (wordBounds i).1 ≤ ws.length ∧ ws.length ≤ (wordBounds i).2 ∧
      calls.length = 53 * ws.length + (match i with | .init _ _ _ _ _ => 6 | _ => 0)

/-- R27, R45, R47 (derived there). Replaying the pin trace gives back the line levels and the word trace, `RWT = WT`,
whatever the receiver did not know; every step keeps this. -/
def Obligations.ReplayedTraceIsTheWordTrace : Prop :=
  ∀ (s t : State), s.traceOk → step s = .next t → t.traceOk

/-- R24, R33, R20 (derived there). Before INIT nothing has happened; after it the three lines are low between commands, all
pins are outputs and the identifiers are held; every step keeps this. -/
def Obligations.LinesAreLowBetweenCommands : Prop :=
  ∀ (s t : State), s.lifecycleOk → step s = .next t → t.lifecycleOk

/-- R104, R244 (derived there; the model's own choice, log entry 32: a clock that has no level before INIT counts as not
high). Over the whole pin trace: data moves only while the clock is not high, nothing but LOAD moves inside a latch pulse;
every step keeps this. -/
def Obligations.PinOrderHoldsOverTheWholeTrace : Prop :=
  ∀ (s t : State), s.lifecycleOk → pinOrderOk State.reset.lines s.pt = true → step s = .next t →
    pinOrderOk State.reset.lines t.pt = true

/-- R25, R221 (decision D5). `FINFO` is set exactly when `FAULT` is, and names an operand that breaks its command's
contract; every step keeps this. -/
def Obligations.FaultRecordStaysTrue : Prop :=
  ∀ (s t : State), s.faultOk → step s = .next t → t.faultOk

/-- R20, R24, R25, R45, R240. All four invariants hold at reset. -/
def Obligations.ResetMeetsTheInvariants : Prop :=
  State.reset.traceOk ∧ State.reset.lifecycleOk ∧ State.reset.faultOk ∧
    pinOrderOk State.reset.lines State.reset.pt = true

/-- R245 (derived there). INIT makes the chip's decode-mode register equal to `DM`, and every instruction but SEND_WORD to
0x9 and a bare DECODE_MODE word keeps them equal. -/
def Obligations.DecodeModeCoherenceIsKept : Prop :=
  (∀ (s t : State) (din clk load : PinId) (sl it : Byte), exec (.init din clk load sl it) s = .next t → t.coherent) ∧
  (∀ (i : Instr) (s t : State), s.coherent → bypassesDecodeMode i = false → exec i s = .next t → t.coherent)

/-- R245 (derived there). SEND_WORD to 0x9 writes the chip's register and not `DM`. -/
def Obligations.SendWordCanBreakCoherence : Prop :=
  ∀ (s : State) (m : Byte), s.ready →
    ∃ t, exec (.sendWord (0x09#8 ++ m)) s = .next t ∧ t.dm = s.dm ∧ regView t.wt 0x9 = some m

/-- R46, R246 (derived there). SEND_NUMBER_INT writes the digit registers `1..k` of its `k` entries, each with its own
byte, and leaves every higher digit register as it was. -/
def Obligations.NumberLeavesHigherDigitsAlone : Prop :=
  ∀ (s t : State) (n : Int), exec (.sendNumberInt n) s = .next t →
    (∀ e ∈ intEntries n, regView t.wt (BitVec.ofNat 4 e.1) = some e.2) ∧
    ∀ q, (intEntries n).length < q → q ≤ 8 → regView t.wt (BitVec.ofNat 4 q) = regView s.wt (BitVec.ofNat 4 q)

/-- R73, R140 to R142, R245 (decision D27). In a coherent block, what SEND_DIGIT makes its position show: the symbol of a
BCD-capable value with its point, or the literal segments of any other. The model's choice (log entry 31): display test,
shutdown and scan limit are left aside, so it does not say that test is off (R241, U10). -/
def Obligations.SendDigitShowsTheValue : Prop :=
  ∀ (s t : State) (pos : Nat) (v : Byte) (dot : Bool), s.coherent → exec (.sendDigit pos v dot) s = .next t →
    t.fault = false →
    shownAt t.wt pos =
      some (if v.toNat ≤ 15 then .symbol (symbolOf (v.extractLsb' 0 4)) dot else .segments v)

/-- R70 (derived there). Each of the seven pseudo-commands and its expansion, run one after another, end with the same
`DM`, word trace, pin trace and lines. -/
def Obligations.ExpansionsHaveTheSameEffect : Prop :=
  ∀ (i : Instr) (is : List Instr) (s : State), expansion i = some is → s.ready →
    ∃ t u, exec i s = .next t ∧ runInstrs is s = .next u ∧
      t.dm = u.dm ∧ t.wt = u.wt ∧ t.pt = u.pt ∧ t.lines = u.lines ∧ t.lc = u.lc ∧ t.fault = u.fault

/-! ### Encoding (30_encoding.md) -/

/-- R60. A register word is its address byte above its data byte. -/
def Obligations.RegisterWordHasItsTwoFields : Prop :=
  ∀ (addr data : Byte), wordAddr (regWord addr data) = addr ∧ wordData (regWord addr data) = data ∧
    (regWord addr data).toNat = addr.toNat * 2 ^ 8 + data.toNat

/-- R64, R65, R67 (4), R72 to R78 (decisions D2, D12, D15; log entries 8 and 10 for typed operands and for refusing a wide
one). Decoding the encoding of an instruction gives it back exactly when the configuration can spell it, with every operand
at every value. -/
def Obligations.DecodeGivesBackEveryEncoding : Prop :=
  ∀ (cfg : Config) (i : Instr), decode cfg (encode i) = .ok i ↔ i.spellable cfg = true

/-- R60, R72 to R79, and the model's own choice of which bare words decode: any data byte does (log entry 29) and an address
no row names does not (log entry 12). A word decodes exactly when a row of the table names its address, and then to the
instruction whose encoding it is: no word has two meanings. -/
def Obligations.WordsDecodeToTheirOwnRow : Prop :=
  ∀ (w : Word),
    (∀ i, decodeWord w = .ok i → encode i = .word w) ∧
    ((∃ i, decodeWord w = .ok i) ↔ (w.extractLsb' 8 8).toNat ≤ 0x0C ∨ w.extractLsb' 8 8 = 0x0F)

/-- R64, R65, R67 (decisions D2, D5, D12, D15; log entries 9 and 10). A command decodes only by its opcode's row: whatever
decodes has an opcode below 0x13, is the instruction that opcode and its full operands encode, and has no operand wider than
the configuration spells. -/
def Obligations.CommandsDecodeByTheirOpcode : Prop :=
  ∀ (cfg : Config) (b : Byte) (operands : List Operand) (i : Instr), decodeCommand cfg b operands = .ok i →
    b.toNat < 0x13 ∧ (∃ rest, encode i = .command b (operands ++ rest)) ∧ i.spellable cfg = true

/-- R64, R67, R69, R72 to R78 (decisions D2, D5, D9, D10, D12; the model's own choices: defaults filled in by the decoder, log
entry 9; a wide operand refused, log entry 10; an unnamed word refused, log entry 12). Some units written out from the
spec's tables, and what they spell; omitted operands take their defaults. -/
def Obligations.SampleUnitsDecodeAsWritten : Prop :=
  decode Config.standard (.command 0x06 [.natural 3, .u8 0x05, .boolean true]) = .ok (.sendDigit 3 0x05 true) ∧
  decode Config.standard (.command 0x07 [.natural 8, .glyph .dash]) = .ok (.sendChar 8 .dash false) ∧
  decode Config.standard (.command 0x08 [.integer (-2147483648)]) = .ok (.sendNumberInt (-2147483648)) ∧
  decode Config.standard (.command 0x08 [.integer 2147483648]) = .error (.malformedOperands 0x08) ∧
  decode Config.standard (.command 0x0E []) = .ok (.sendNop 0x00) ∧
  decode Config.standard (.command 0x11 [.pin 4, .pin 5, .pin 6]) = .ok (.init 4 5 6 8 255) ∧
  decode Config.standard (.command 0x13 []) = .error (.reservedOpcode 0x13) ∧
  decode Config.standard (.word 0x09F3) = .ok (.decodeMode 0xF3) ∧
  decode Config.standard (.word 0x0C01) = .ok (.shutdown 0x01) ∧
  decode Config.standard (.word 0x0D55) = .error (.unnamedWord 0x0D55)
end

