-- ==== Sys2Proof/Laws/State.lean ====
section
/-! SUPPORT. One lemma per field per named update of State. -/

namespace Sys2Proof.Machine

section SetFault

variable (s : State) (info : FaultInfo)

@[simp] theorem setFault_lc : (setFault info s).lc = s.lc := rfl
@[simp] theorem setFault_dm : (setFault info s).dm = s.dm := rfl
@[simp] theorem setFault_lines : (setFault info s).lines = s.lines := rfl
@[simp] theorem setFault_dir : (setFault info s).dir = s.dir := rfl
@[simp] theorem setFault_fault : (setFault info s).fault = true := rfl
@[simp] theorem setFault_finfo : (setFault info s).finfo = some info := rfl
@[simp] theorem setFault_wt : (setFault info s).wt = s.wt := rfl
@[simp] theorem setFault_pt : (setFault info s).pt = s.pt := rfl
@[simp] theorem setFault_ci : (setFault info s).ci = s.ci := rfl
@[simp] theorem setFault_pins : (setFault info s).pins = s.pins := rfl
@[simp] theorem setFault_cfg : (setFault info s).cfg = s.cfg := rfl
@[simp] theorem setFault_prog : (setFault info s).prog = s.prog := rfl
@[simp] theorem setFault_result : (setFault info s).result = s.result := rfl

end SetFault

section PinSet

variable (s : State) (p : Line) (lvl : Bool)

@[simp] theorem pinSet_lc : (pinSet p lvl s).lc = s.lc := rfl
@[simp] theorem pinSet_dm : (pinSet p lvl s).dm = s.dm := rfl
@[simp] theorem pinSet_lines : (pinSet p lvl s).lines = putLine s.lines p (levelOf lvl) := rfl
@[simp] theorem pinSet_dir : (pinSet p lvl s).dir = s.dir := rfl
@[simp] theorem pinSet_fault : (pinSet p lvl s).fault = s.fault := rfl
@[simp] theorem pinSet_finfo : (pinSet p lvl s).finfo = s.finfo := rfl
@[simp] theorem pinSet_wt : (pinSet p lvl s).wt = s.wt := rfl
@[simp] theorem pinSet_pt : (pinSet p lvl s).pt = s.pt ++ [.set p lvl] := rfl
@[simp] theorem pinSet_ci : (pinSet p lvl s).ci = s.ci := rfl
@[simp] theorem pinSet_pins : (pinSet p lvl s).pins = s.pins := rfl
@[simp] theorem pinSet_cfg : (pinSet p lvl s).cfg = s.cfg := rfl
@[simp] theorem pinSet_prog : (pinSet p lvl s).prog = s.prog := rfl
@[simp] theorem pinSet_result : (pinSet p lvl s).result = s.result := rfl

end PinSet

section PinCfgOut

variable (s : State) (p : Line)

@[simp] theorem pinCfgOut_lc : (pinCfgOut p s).lc = s.lc := rfl
@[simp] theorem pinCfgOut_dm : (pinCfgOut p s).dm = s.dm := rfl
@[simp] theorem pinCfgOut_lines : (pinCfgOut p s).lines = s.lines := rfl
@[simp] theorem pinCfgOut_dir : (pinCfgOut p s).dir = putLine s.dir p true := rfl
@[simp] theorem pinCfgOut_fault : (pinCfgOut p s).fault = s.fault := rfl
@[simp] theorem pinCfgOut_finfo : (pinCfgOut p s).finfo = s.finfo := rfl
@[simp] theorem pinCfgOut_wt : (pinCfgOut p s).wt = s.wt := rfl
@[simp] theorem pinCfgOut_pt : (pinCfgOut p s).pt = s.pt ++ [.out p] := rfl
@[simp] theorem pinCfgOut_ci : (pinCfgOut p s).ci = s.ci := rfl
@[simp] theorem pinCfgOut_pins : (pinCfgOut p s).pins = s.pins := rfl
@[simp] theorem pinCfgOut_cfg : (pinCfgOut p s).cfg = s.cfg := rfl
@[simp] theorem pinCfgOut_prog : (pinCfgOut p s).prog = s.prog := rfl
@[simp] theorem pinCfgOut_result : (pinCfgOut p s).result = s.result := rfl

end PinCfgOut

section RecordWord

variable (s : State) (w : Word)

@[simp] theorem recordWord_lc : (recordWord w s).lc = s.lc := rfl
@[simp] theorem recordWord_dm : (recordWord w s).dm = s.dm := rfl
@[simp] theorem recordWord_lines : (recordWord w s).lines = s.lines := rfl
@[simp] theorem recordWord_dir : (recordWord w s).dir = s.dir := rfl
@[simp] theorem recordWord_fault : (recordWord w s).fault = s.fault := rfl
@[simp] theorem recordWord_finfo : (recordWord w s).finfo = s.finfo := rfl
@[simp] theorem recordWord_wt : (recordWord w s).wt = s.wt ++ [w] := rfl
@[simp] theorem recordWord_pt : (recordWord w s).pt = s.pt := rfl
@[simp] theorem recordWord_ci : (recordWord w s).ci = s.ci := rfl
@[simp] theorem recordWord_pins : (recordWord w s).pins = s.pins := rfl
@[simp] theorem recordWord_cfg : (recordWord w s).cfg = s.cfg := rfl
@[simp] theorem recordWord_prog : (recordWord w s).prog = s.prog := rfl
@[simp] theorem recordWord_result : (recordWord w s).result = s.result := rfl

end RecordWord

section AfterWords

variable (s : State) (ws : List Word) (dm : Byte)

@[simp] theorem afterWords_lc : (afterWords s ws dm).lc = s.lc := rfl
@[simp] theorem afterWords_dm : (afterWords s ws dm).dm = dm := rfl
@[simp] theorem afterWords_lines : (afterWords s ws dm).lines = linesLow := rfl
@[simp] theorem afterWords_dir : (afterWords s ws dm).dir = s.dir := rfl
@[simp] theorem afterWords_fault : (afterWords s ws dm).fault = s.fault := rfl
@[simp] theorem afterWords_finfo : (afterWords s ws dm).finfo = s.finfo := rfl
@[simp] theorem afterWords_wt : (afterWords s ws dm).wt = s.wt ++ ws := rfl
@[simp] theorem afterWords_pt : (afterWords s ws dm).pt = s.pt ++ wordsPins ws := rfl
@[simp] theorem afterWords_ci : (afterWords s ws dm).ci = s.ci + 1 := rfl
@[simp] theorem afterWords_pins : (afterWords s ws dm).pins = s.pins := rfl
@[simp] theorem afterWords_cfg : (afterWords s ws dm).cfg = s.cfg := rfl
@[simp] theorem afterWords_prog : (afterWords s ws dm).prog = s.prog := rfl
@[simp] theorem afterWords_result : (afterWords s ws dm).result = none := rfl

end AfterWords

section AfterQuery

variable (s : State) (r : QueryResult)

@[simp] theorem afterQuery_lc : (afterQuery s r).lc = s.lc := rfl
@[simp] theorem afterQuery_dm : (afterQuery s r).dm = s.dm := rfl
@[simp] theorem afterQuery_lines : (afterQuery s r).lines = s.lines := rfl
@[simp] theorem afterQuery_dir : (afterQuery s r).dir = s.dir := rfl
@[simp] theorem afterQuery_fault : (afterQuery s r).fault = s.fault := rfl
@[simp] theorem afterQuery_finfo : (afterQuery s r).finfo = s.finfo := rfl
@[simp] theorem afterQuery_wt : (afterQuery s r).wt = s.wt := rfl
@[simp] theorem afterQuery_pt : (afterQuery s r).pt = s.pt := rfl
@[simp] theorem afterQuery_ci : (afterQuery s r).ci = s.ci + 1 := rfl
@[simp] theorem afterQuery_pins : (afterQuery s r).pins = s.pins := rfl
@[simp] theorem afterQuery_cfg : (afterQuery s r).cfg = s.cfg := rfl
@[simp] theorem afterQuery_prog : (afterQuery s r).prog = s.prog := rfl
@[simp] theorem afterQuery_result : (afterQuery s r).result = some r := rfl

end AfterQuery

section AfterViolation

variable (s : State) (cause : Cause) (opcode : Byte) (operand : Nat)

@[simp] theorem afterViolation_lc : (afterViolation s cause opcode operand).lc = s.lc := rfl
@[simp] theorem afterViolation_dm : (afterViolation s cause opcode operand).dm = s.dm := rfl
@[simp] theorem afterViolation_lines : (afterViolation s cause opcode operand).lines = s.lines := rfl
@[simp] theorem afterViolation_dir : (afterViolation s cause opcode operand).dir = s.dir := rfl
@[simp] theorem afterViolation_fault : (afterViolation s cause opcode operand).fault = true := rfl
@[simp] theorem afterViolation_finfo : (afterViolation s cause opcode operand).finfo = some ⟨cause, opcode, operand⟩ := rfl
@[simp] theorem afterViolation_wt : (afterViolation s cause opcode operand).wt = s.wt := rfl
@[simp] theorem afterViolation_pt : (afterViolation s cause opcode operand).pt = s.pt := rfl
@[simp] theorem afterViolation_ci : (afterViolation s cause opcode operand).ci = s.ci := rfl
@[simp] theorem afterViolation_pins : (afterViolation s cause opcode operand).pins = s.pins := rfl
@[simp] theorem afterViolation_cfg : (afterViolation s cause opcode operand).cfg = s.cfg := rfl
@[simp] theorem afterViolation_prog : (afterViolation s cause opcode operand).prog = s.prog := rfl
@[simp] theorem afterViolation_result : (afterViolation s cause opcode operand).result = s.result := rfl

end AfterViolation

end Sys2Proof.Machine
end

