-- ==== Sys2Proof/Laws/Serializer.lean ====
section
/-! SUPPORT. What the shared operations can do, said once: `emitWord`, R222's checks, and what a completed command is. -/

namespace Sys2Proof.Machine

/-! ### The serializer -/

/-- R101's whole effect: R102's 53 entries, the word, and the three lines low (R103). Nothing else changes. -/
theorem emitWord_eq (w : Word) (s : State) :
    emitWord w s = { s with lines := linesLow, wt := s.wt ++ [w], pt := s.pt ++ wordPins w } := by
  simp only [emitWord, recordWord, latchPulse, sendBits, sendBit, pinSet, putLine, levelOf, List.append_assoc,
    List.cons_append, List.nil_append]
  rfl

@[simp] theorem wordPins_length (w : Word) : (wordPins w).length = 53 := by simp [wordPins]

@[simp] theorem wordsPins_nil : wordsPins [] = [] := rfl

@[simp] theorem wordsPins_cons (w : Word) (ws : List Word) : wordsPins (w :: ws) = wordPins w ++ wordsPins ws := rfl

@[simp] theorem wordsPins_append (us vs : List Word) : wordsPins (us ++ vs) = wordsPins us ++ wordsPins vs := by
  simp [wordsPins]

/-- 53 entries a word (R102). -/
theorem wordsPins_length (ws : List Word) : (wordsPins ws).length = 53 * ws.length := by
  induction ws with
  | nil => rfl
  | cons w ws ih => simp [ih]; omega

/-- `s` with the words `ws` on the wire and in `WT`, and `DM = dm`: the effect of the inside of a command. -/
def withWords (s : State) (ws : List Word) (dm : Byte) : State :=
  { s with dm := dm, lines := linesLow, wt := s.wt ++ ws, pt := s.pt ++ wordsPins ws }

theorem emitWord_eq_withWords (w : Word) (s : State) : emitWord w s = withWords s [w] s.dm := by
  simp [emitWord_eq, withWords]

/-- Words sent after words. -/
@[simp] theorem withWords_withWords (s : State) (us vs : List Word) (dm dm' : Byte) :
    withWords (withWords s us dm) vs dm' = withWords s (us ++ vs) dm' := by
  simp [withWords]

@[simp] theorem withWords_dm (s : State) (ws : List Word) (dm : Byte) : (withWords s ws dm).dm = dm := rfl
@[simp] theorem withWords_cfg (s : State) (ws : List Word) (dm : Byte) : (withWords s ws dm).cfg = s.cfg := rfl

@[simp] theorem emitWord_withWords (s : State) (ws : List Word) (dm : Byte) (w : Word) :
    emitWord w (withWords s ws dm) = withWords s (ws ++ [w]) dm := by
  simp [emitWord_eq_withWords]

/-- A command that emitted `ws` and completed. -/
theorem complete_withWords (s : State) (ws : List Word) (dm : Byte) :
    complete none (withWords s ws dm) = .next (afterWords s ws dm) := rfl

theorem complete_emitWord (s : State) (w : Word) :
    complete none (emitWord w s) = .next (afterWords s [w] s.dm) := by
  rw [emitWord_eq_withWords, complete_withWords]

/-! ### R222's checks -/

/-- In an accepted state the command runs. -/
theorem whenAllowed_run {required : Lifecycle} {s : State} (hf : s.fault = false) (hl : s.lc = required)
    (run : State → Result) : whenAllowed required s run = run s := by
  simp [whenAllowed, hf, hl]

/-- `FAULT = 1` refuses every command, before anything else is checked. -/
theorem whenAllowed_faulted {required : Lifecycle} {s : State} (hf : s.fault = true) (run : State → Result) :
    whenAllowed required s run = .refused .faulted := by
  simp [whenAllowed, hf]

/-- The wrong lifecycle state refuses. -/
theorem whenAllowed_lifecycle {required : Lifecycle} {s : State} (hf : s.fault = false) (hl : s.lc ≠ required)
    (run : State → Result) : whenAllowed required s run = .refused (.lifecycle s.lc) := by
  simp [whenAllowed, hf, hl]

/-- Everything the checks can answer: a next state comes only from the command, in an accepted state. -/
theorem whenAllowed_next {required : Lifecycle} {s t : State} {run : State → Result}
    (h : whenAllowed required s run = .next t) : s.fault = false ∧ s.lc = required ∧ run s = .next t := by
  unfold whenAllowed at h
  split at h
  · cases h
  · split at h
    · simp_all
    · cases h

end Sys2Proof.Machine
end

