-- ==== Sys2Proof/Laws/DigitEncoder.lean ====
section
/-! SUPPORT. What the digit encoder's operations do: words appended, and the register's new value. -/

namespace Sys2Proof.Machine

/-! ### Mask bits -/

theorem dmBit_digitBit (d j : Nat) : dmBit (digitBit d) j = (decide (j = d) && decide (d < 8)) := by
  simp only [dmBit, digitBit, BitVec.getLsbD_shiftLeft]
  rcases Nat.lt_trichotomy j d with h | h | h
  · simp [h, Nat.ne_of_lt h]
  · subst h; simp
  · have hne : j ≠ d := by omega
    have hpos : j - d ≠ 0 := by omega
    simp [hne, hpos]

@[simp] theorem dmBit_or (a b : Byte) (j : Nat) : dmBit (a ||| b) j = (dmBit a j || dmBit b j) := by
  simp [dmBit]

theorem dmBit_and_not (a b : Byte) (j : Nat) (hj : j < 8) : dmBit (a &&& ~~~b) j = (dmBit a j && !dmBit b j) := by
  simp [dmBit, hj]

/-- Two registers with the same eight bits are equal. -/
theorem byte_ext {a b : Byte} (h : ∀ j < 8, dmBit a j = dmBit b j) : a = b :=
  BitVec.eq_of_getLsbD_eq fun j hj => h j hj

theorem or_digitBit_self {dm : Byte} {d : Nat} (h : dmBit dm d = true) : dm ||| digitBit d = dm := by
  apply byte_ext
  intro j _
  rw [dmBit_or, dmBit_digitBit]
  by_cases hj : j = d
  · subst hj; simp [h]
  · simp [hj]

theorem and_not_digitBit_self {dm : Byte} {d : Nat} (h : dmBit dm d = false) : dm &&& ~~~digitBit d = dm := by
  apply byte_ext
  intro j hj8
  rw [dmBit_and_not _ _ _ hj8, dmBit_digitBit]
  by_cases hj : j = d
  · subst hj; simp [h]
  · simp [hj]

/-! ### Words sent by the register file and the digit encoder -/

theorem writeDecodeMode_eq (v : Byte) (s : State) : writeDecodeMode v s = withWords s [regWord 0x09 v] v := by
  simp [writeDecodeMode, emitWord_eq, withWords]

theorem setBcd_eq (m : Byte) (s : State) : setBcd m s = withWords s [regWord 0x09 (s.dm ||| m)] (s.dm ||| m) :=
  writeDecodeMode_eq _ s

theorem setRaw_eq (m : Byte) (s : State) :
    setRaw m s = withWords s [regWord 0x09 (s.dm &&& ~~~m)] (s.dm &&& ~~~m) :=
  writeDecodeMode_eq _ s

/-- The words of one raw value (R140): the mode word if the digit was BCD, then the value as given. -/
def rawWords (dm : Byte) (pos : Nat) (v : Byte) : List Word :=
  (if dmBit dm (pos - 1) then [regWord 0x09 (dm &&& ~~~digitBit (pos - 1))] else []) ++ [regWord (BitVec.ofNat 8 pos) v]

/-- SEND_DIGIT of a BCD-capable value. -/
theorem sendDigit_bcd {v : Byte} (hv : bcdCapable v = true) (pos : Nat) (dot : Bool) (s : State) :
    sendDigit pos v dot s =
      withWords s (bcdWords s.dm [(pos, digitData v dot)]) (bcdMask s.dm [(pos, digitData v dot)]) := by
  unfold sendDigit switchMode
  cases hd : dmBit s.dm (pos - 1)
  · simp [hv, hd, setBcd_eq, bcdWords, bcdMask]
  · simp [hv, hd, emitWord_eq_withWords, bcdWords, bcdMask, or_digitBit_self hd]

/-- SEND_DIGIT of a raw value: the dot is ignored. -/
theorem sendDigit_raw {v : Byte} (hv : bcdCapable v = false) (pos : Nat) (dot : Bool) (s : State) :
    sendDigit pos v dot s = withWords s (rawWords s.dm pos v) (s.dm &&& ~~~digitBit (pos - 1)) := by
  unfold sendDigit switchMode
  cases hd : dmBit s.dm (pos - 1)
  · simp [hv, hd, emitWord_eq_withWords, rawWords, digitData, and_not_digitBit_self hd]
  · simp [hv, hd, setRaw_eq, rawWords, digitData]

/-- The DIGIT entry of a call. -/
def DigitCall.entry (c : DigitCall) : DigitEntry := (c.pos, digitData c.value c.dot)

theorem bcdWords_cons (dm : Byte) (e : DigitEntry) (rest : List DigitEntry) :
    bcdWords dm (e :: rest) = bcdWords dm [e] ++ bcdWords (bcdMask dm [e]) rest := by
  simp [bcdWords, bcdMask]

theorem bcdMask_cons (dm : Byte) (e : DigitEntry) (rest : List DigitEntry) :
    bcdMask dm (e :: rest) = bcdMask (bcdMask dm [e]) rest := rfl

/-- A stream of BCD-capable SEND_DIGIT calls, at least one: each raw digit costs a mode word (R140, R146). -/
theorem sendCalls_bcd (c : DigitCall) (cs : List DigitCall) (s : State)
    (h : ∀ c' ∈ c :: cs, bcdCapable c'.value = true) :
    sendCalls (c :: cs) s =
      withWords s (bcdWords s.dm ((c :: cs).map DigitCall.entry)) (bcdMask s.dm ((c :: cs).map DigitCall.entry)) := by
  induction cs generalizing c s with
  | nil => exact sendDigit_bcd (h c (by simp)) c.pos c.dot s
  | cons c' cs ih =>
    have hfirst : sendCalls (c :: c' :: cs) s = sendCalls (c' :: cs) (sendDigit c.pos c.value c.dot s) := rfl
    rw [hfirst, ih c' _ fun d hd => h d (List.mem_cons_of_mem _ hd), sendDigit_bcd (h c (by simp)), withWords_withWords]
    simp only [withWords_dm, List.map_cons]
    rw [bcdWords_cons s.dm c.entry, bcdMask_cons s.dm c.entry]
    rfl

/-- Eight positions written with one BCD-capable value leave `DM = 0xFF` (R144, R145). -/
theorem bcdMask_sameEverywhere (dm data : Byte) : bcdMask dm (sameEverywhere data) = 0xFF := by
  apply byte_ext
  intro j hj
  simp only [bcdMask, sameEverywhere, List.foldl, dmBit_or, dmBit_digitBit]
  interval_cases j <;> simp <;> decide

/-- CLEAR's and FILL_ZEROS's stream. -/
theorem sendCalls_allPositions {v : Byte} (hv : bcdCapable v = true) (s : State) :
    sendCalls (allPositions v) s = withWords s (bcdWords s.dm (sameEverywhere v)) 0xFF := by
  have hlist : (allPositions v).map DigitCall.entry = sameEverywhere v := by
    simp [allPositions, sameEverywhere, DigitCall.entry, digitData, hv, List.range, List.range.loop]
  have hcons : allPositions v = ⟨1, v, false⟩ :: (allPositions v).tail := by
    simp [allPositions, List.range, List.range.loop]
  have hall : ∀ c ∈ allPositions v, bcdCapable c.value = true := by
    intro c hc
    obtain ⟨d, -, rfl⟩ := List.mem_map.mp hc
    exact hv
  rw [hcons] at hall hlist ⊢
  rw [sendCalls_bcd _ _ _ hall, hlist, bcdMask_sameEverywhere]

theorem clearDisplay_eq (s : State) :
    clearDisplay s = withWords s (bcdWords s.dm (sameEverywhere 0x0F)) 0xFF :=
  sendCalls_allPositions (by decide) s

/-! ### Masks built for the host -/

theorem dmBit_maskOf (ds : List Nat) (j : Nat) (hj : j < 8) : dmBit (maskOf ds) j = decide (j ∈ ds) := by
  have general : ∀ (l : List Nat) (m : Byte),
      dmBit (l.foldl (fun m d => if d ≤ 7 then m ||| digitBit d else m) m) j = (dmBit m j || decide (j ∈ l)) := by
    intro l
    induction l with
    | nil => simp
    | cons d l ih =>
      intro m
      rw [List.foldl_cons, ih]
      by_cases hd : d ≤ 7
      · have h8 : d < 8 := by omega
        simp [hd, dmBit_digitBit, h8, Bool.or_assoc]
      · have hne : j ≠ d := by omega
        simp [hd, hne]
  rw [maskOf, general]
  simp [dmBit]

end Sys2Proof.Machine
end

