-- ==== Sys2Proof/Laws/Number.lean ====
section
/-! SUPPORT. The digit streams of 43_number_encoder.md: the loops give the decimal digits, and the streams are R161's and
R165's. -/

namespace Sys2Proof.Machine

/-- The loop of R124 gives all decimal digits when its fuel does not run out. -/
theorem decimalLoop_eq_digits (fuel t : Nat) (h : t < 2 ^ fuel) : decimalLoop fuel t = Nat.digits 10 t := by
  induction fuel generalizing t with
  | zero =>
    obtain rfl : t = 0 := by simpa using h
    simp [decimalLoop]
  | succ fuel ih =>
    by_cases ht : t = 0
    · simp [decimalLoop, ht]
    · rw [decimalLoop, if_neg ht, ih (t / 10) (by rw [pow_succ] at h; omega),
        Nat.digits_def' (by decide) (Nat.pos_of_ne_zero ht)]

theorem compositeDigits_eq (n : Nat) : compositeDigits n = decimalDigits n := by
  unfold compositeDigits decimalDigits
  split
  · rfl
  · exact decimalLoop_eq_digits _ n Nat.lt_log2_self

@[simp] theorem bcdCapable_lowDigit (t : Nat) : bcdCapable (lowDigit t) = true := by
  have h : t % 10 < 10 := Nat.mod_lt _ (by decide)
  simp [bcdCapable, lowDigit]
  omega

theorem entry_lowDigit (pos t : Nat) :
    DigitCall.entry ⟨pos, lowDigit t, false⟩ = (pos, BitVec.ofNat 8 (t % 10)) := by
  simp [DigitCall.entry, digitData, lowDigit]

theorem entry_lowDigit_dot (pos t : Nat) :
    DigitCall.entry ⟨pos, lowDigit t, true⟩ = (pos, 0x80 ||| BitVec.ofNat 8 (t % 10)) := by
  have h := bcdCapable_lowDigit t
  simp [DigitCall.entry, digitData, h]
  rw [BitVec.or_comm]; rfl

theorem digitCalls_map_entry (room pos t : Nat) :
    (digitCalls room pos t).map DigitCall.entry = placeDigits pos ((Nat.digits 10 t).take room) := by
  induction room generalizing pos t with
  | zero => simp [digitCalls, placeDigits]
  | succ room ih =>
    by_cases ht : t = 0
    · simp [digitCalls, ht, placeDigits]
    · rw [digitCalls, if_neg ht, Nat.digits_def' (by decide) (Nat.pos_of_ne_zero ht)]
      simp only [List.map_cons, List.take_succ_cons, placeDigits, entry_lowDigit, ih]

theorem digitCalls_length (room pos t : Nat) :
    (digitCalls room pos t).length = min room (Nat.digits 10 t).length := by
  have h := congrArg List.length (digitCalls_map_entry room pos t)
  have hp : ∀ (l : List Nat) (k : Nat), (placeDigits k l).length = l.length := by
    intro l
    induction l with
    | nil => intro _; rfl
    | cons d l ih => intro k; simp [placeDigits, ih]
  simpa [hp] using h

theorem paddedCalls_map_entry (room pos t : Nat) :
    (paddedCalls room pos t).map DigitCall.entry =
      placeDigits pos ((List.range room).map fun j => t / 10 ^ j % 10) := by
  induction room generalizing pos t with
  | zero => simp [paddedCalls, placeDigits]
  | succ room ih =>
    rw [paddedCalls, List.map_cons, ih, entry_lowDigit, List.range_succ_eq_map]
    simp only [List.map_cons, placeDigits, List.map_map, pow_zero, Nat.div_one]
    congr 2
    apply List.map_congr_left
    intro j _
    simp [Nat.pow_succ, Nat.div_div_eq_div_mul, Nat.mul_comm]

/-! ### Every call of a number command carries a BCD-capable value -/

theorem digitCalls_bcd {room pos t : Nat} {c : DigitCall} (h : c ∈ digitCalls room pos t) :
    bcdCapable c.value = true := by
  induction room generalizing pos t with
  | zero => simp [digitCalls] at h
  | succ room ih =>
    rw [digitCalls] at h
    split at h
    · simp at h
    · rcases List.mem_cons.mp h with rfl | h
      · simp
      · exact ih h

theorem paddedCalls_bcd {room pos t : Nat} {c : DigitCall} (h : c ∈ paddedCalls room pos t) :
    bcdCapable c.value = true := by
  induction room generalizing pos t with
  | zero => simp [paddedCalls] at h
  | succ room ih =>
    rcases List.mem_cons.mp h with rfl | h
    · simp
    · exact ih h

theorem dashCalls_bcd {neg : Bool} {pos : Nat} {c : DigitCall} (h : c ∈ dashCalls neg pos) :
    bcdCapable c.value = true := by
  unfold dashCalls at h
  split at h
  · simp only [List.mem_singleton] at h; subst h; show bcdCapable (glyphCode .dash) = true; decide
  · simp at h

theorem intCalls_bcd {n : Int} {c : DigitCall} (h : c ∈ intCalls n) : bcdCapable c.value = true := by
  unfold intCalls at h
  split at h
  · simp only [List.mem_singleton] at h; subst h; decide
  · rcases List.mem_append.mp h with h | h
    · exact digitCalls_bcd h
    · exact dashCalls_bcd h

theorem fractionCalls_bcd {fracPad : Bool} {p fp : Nat} {c : DigitCall} (h : c ∈ fractionCalls fracPad p fp) :
    bcdCapable c.value = true := by
  unfold fractionCalls at h
  split at h
  · exact paddedCalls_bcd h
  · exact digitCalls_bcd h

theorem integerCalls_bcd {p ip : Nat} {c : DigitCall} (h : c ∈ integerCalls p ip) : bcdCapable c.value = true := by
  rcases List.mem_cons.mp h with rfl | h
  · simp
  · exact digitCalls_bcd h

theorem decCalls_bcd {fracPad : Bool} {p : Nat} {parts : SplitParts} {c : DigitCall}
    (h : c ∈ decCalls fracPad p parts) : bcdCapable c.value = true := by
  unfold decCalls at h
  simp only at h
  split at h
  · exact fractionCalls_bcd h
  · rcases List.mem_append.mp h with h | h
    · rcases List.mem_append.mp h with h | h
      · exact fractionCalls_bcd h
      · exact integerCalls_bcd h
    · exact dashCalls_bcd h

/-! ### The streams -/

theorem dashCalls_map_entry (neg : Bool) (pos : Nat) :
    (dashCalls neg pos).map DigitCall.entry = if neg ∧ pos ≤ 8 then [(pos, 0x0A)] else [] := by
  unfold dashCalls
  split
  · simp [DigitCall.entry, glyphCode, digitData, bcdCapable]
  · simp

/-- R161. -/
theorem intCalls_map_entry (n : Int) : (intCalls n).map DigitCall.entry = intEntries n := by
  unfold intCalls intEntries
  by_cases hn : n = 0
  · subst hn; rfl
  · have habs : n.natAbs ≠ 0 := by omega
    simp only [hn, if_false, List.map_append, digitCalls_map_entry, dashCalls_map_entry, digitCalls_length,
      decimalDigits, habs]
    congr 1
    by_cases hneg : n < 0
    · by_cases hlen : (Nat.digits 10 n.natAbs).length < 8
      · have h1 : min 8 (Nat.digits 10 n.natAbs).length = (Nat.digits 10 n.natAbs).length := by omega
        have h2 : 1 + (Nat.digits 10 n.natAbs).length ≤ 8 := by omega
        simp [hneg, hlen, h1, h2, Nat.add_comm]
      · have h1 : ¬ 1 + min 8 (Nat.digits 10 n.natAbs).length ≤ 8 := by omega
        simp [hneg, hlen, h1]
    · simp [hneg]

theorem intCalls_ne_nil (n : Int) : intCalls n ≠ [] := by
  unfold intCalls
  split
  · simp
  · rename_i hn
    have habs : n.natAbs ≠ 0 := by omega
    simp [digitCalls, habs]

theorem fractionCalls_map_entry (fracPad : Bool) (p fp : Nat) :
    (fractionCalls fracPad p fp).map DigitCall.entry = fractionEntries fracPad p fp := by
  unfold fractionCalls fractionEntries
  split
  · exact paddedCalls_map_entry _ _ _
  · exact digitCalls_map_entry _ _ _

theorem decimalDigits_tail (n : Nat) : (decimalDigits n).tail = Nat.digits 10 (n / 10) := by
  unfold decimalDigits
  split
  · rename_i h; subst h; simp
  · rename_i h; rw [Nat.digits_def' (by decide) (Nat.pos_of_ne_zero h)]; rfl

theorem decimalDigits_length (n : Nat) : (decimalDigits n).length = (Nat.digits 10 (n / 10)).length + 1 := by
  have h := congrArg List.length (decimalDigits_tail n)
  have hpos : decimalDigits n ≠ [] := by
    unfold decimalDigits
    split
    · simp
    · rename_i h; exact Nat.digits_ne_nil_iff_ne_zero.mpr h
  have : (decimalDigits n).length ≠ 0 := by simpa using hpos
  simp at h
  omega

theorem integerCalls_map_entry {p : Nat} (hp : p ≤ 7) (ip : Nat) :
    (integerCalls p ip).map DigitCall.entry = integerEntries p ip := by
  unfold integerCalls integerEntries
  rw [List.map_cons, entry_lowDigit_dot, digitCalls_map_entry]
  congr 2
  rw [← decimalDigits_tail]
  have h8 : 8 - p = (7 - p) + 1 := by omega
  rw [h8]
  cases decimalDigits ip <;> simp

theorem integerCalls_length {p : Nat} (hp : p ≤ 7) (ip : Nat) :
    (integerCalls p ip).length = min (decimalDigits ip).length (8 - p) := by
  rw [decimalDigits_length]
  simp only [integerCalls, List.length_cons, digitCalls_length]
  omega

/-- R165 (1) to (4). -/
theorem decCalls_map_entry (fracPad : Bool) (p : Nat) (parts : SplitParts) :
    (decCalls fracPad p parts).map DigitCall.entry = decEntries fracPad p parts := by
  unfold decCalls decEntries
  by_cases hp : p ≤ 7
  · have hp' : ¬ p + 1 > 8 := by omega
    have hcomm : p + 1 + min (decimalDigits parts.ip).length (8 - p) =
        p + min (decimalDigits parts.ip).length (8 - p) + 1 := by omega
    simp only [hp, hp', if_true, if_false, List.map_append, fractionCalls_map_entry, integerCalls_map_entry hp,
      dashCalls_map_entry, integerCalls_length hp, hcomm, List.append_assoc]
  · have hp' : p + 1 > 8 := by omega
    simp [hp, hp', fractionCalls_map_entry]

theorem decCalls_ne_nil (fracPad : Bool) (p : Nat) (parts : SplitParts) : decCalls fracPad p parts ≠ [] := by
  unfold decCalls
  simp only
  split
  · rename_i h
    have h8 : min p 8 = 8 := by omega
    unfold fractionCalls
    rw [h8]
    split
    · simp [paddedCalls]
    · rename_i hfp
      have : parts.fp ≠ 0 := fun hz => hfp (Or.inl hz)
      simp [digitCalls, this]
  · simp [integerCalls]

/-- A stream of BCD-capable calls, at least one, in terms of its DIGIT entries. -/
theorem sendCalls_entries {calls : List DigitCall} {entries : List DigitEntry} (hne : calls ≠ [])
    (hbcd : ∀ c ∈ calls, bcdCapable c.value = true) (hmap : calls.map DigitCall.entry = entries) (s : State) :
    sendCalls calls s = withWords s (bcdWords s.dm entries) (bcdMask s.dm entries) := by
  cases calls with
  | nil => exact absurd rfl hne
  | cons c cs => rw [sendCalls_bcd c cs s hbcd, hmap]

end Sys2Proof.Machine
end

