-- ==== Sys2Proof/Laws/Exec.lean ====
section
/-! SUPPORT. Everything `exec` can do, said once (`exec_spec`), and the cases of a next state (`exec_next`). Invariants are
proved from these and never unfold a meaning. -/

namespace Sys2Proof.Machine

/-- The words a completed instruction emits. -/
def emitted (s : State) : Instr → List Word
  | .sendWord w => [w]
  | .bitmaskFor _ | .bitmaskForNum _ | .isBcd _ => []
  | .setBcd m => [regWord 0x09 (s.dm ||| m)]
  | .setRaw m => [regWord 0x09 (s.dm &&& ~~~m)]
  | .sendDigit pos v dot =>
    if bcdCapable v then bcdWords s.dm [(pos, digitData v dot)] else rawWords s.dm pos v
  | .sendChar pos g dot => bcdWords s.dm [(pos, digitData (glyphCode g) dot)]
  | .sendNumberInt n => bcdWords s.dm (intEntries n)
  | .sendNumberDec x p => bcdWords s.dm (decEntries s.cfg.fracPad p (splitDecimal s.cfg x p))
  | .setIntensity v => [regWord 0x0A (intensityData v)]
  | .setScanLimit sl => [regWord 0x0B (scanData s.cfg.scanLimitMode sl)]
  | .setShutdown b => [regWord 0x0C (shutdownData b)]
  | .setDisplayTest b => [regWord 0x0F (displayTestData b)]
  | .sendNop d => [regWord 0x00 d]
  | .clear => bcdWords s.dm (sameEverywhere 0x0F)
  | .fillZeros => bcdWords s.dm (sameEverywhere 0x00)
  | .init _ _ _ sl it =>
    [regWord 0x0B (scanData s.cfg.scanLimitMode sl), regWord 0x0A (intensityData it), regWord 0x09 0xFF] ++
      bcdWords 0xFF (sameEverywhere 0x0F) ++ [regWord 0x0C 0x01]
  | .fini => bcdWords s.dm (sameEverywhere 0x0F) ++ [regWord 0x0C 0x00]
  | .noop data => [regWord 0x00 data]
  | .digit1 data => [regWord 0x01 data]
  | .digit2 data => [regWord 0x02 data]
  | .digit3 data => [regWord 0x03 data]
  | .digit4 data => [regWord 0x04 data]
  | .digit5 data => [regWord 0x05 data]
  | .digit6 data => [regWord 0x06 data]
  | .digit7 data => [regWord 0x07 data]
  | .digit8 data => [regWord 0x08 data]
  | .decodeMode data => [regWord 0x09 data]
  | .intensity data => [regWord 0x0A data]
  | .scanLimit data => [regWord 0x0B data]
  | .shutdown data => [regWord 0x0C data]
  | .displayTest data => [regWord 0x0F data]

/-- `DM` after a completed instruction. -/
def dmAfter (s : State) : Instr → Byte
  | .setBcd m => s.dm ||| m
  | .setRaw m => s.dm &&& ~~~m
  | .sendDigit pos v _ =>
    if bcdCapable v then s.dm ||| digitBit (pos - 1) else s.dm &&& ~~~digitBit (pos - 1)
  | .sendChar pos _ _ => s.dm ||| digitBit (pos - 1)
  | .sendNumberInt n => bcdMask s.dm (intEntries n)
  | .sendNumberDec x p => bcdMask s.dm (decEntries s.cfg.fracPad p (splitDecimal s.cfg x p))
  | .clear | .fillZeros | .init _ _ _ _ _ | .fini => 0xFF
  | _ => s.dm

/-! Cite these; `simp [dmAfter]` is slow. -/

theorem dmAfter_setBcd (s : State) (m : Byte) : dmAfter s (.setBcd m) = s.dm ||| m := rfl

theorem dmAfter_setRaw (s : State) (m : Byte) : dmAfter s (.setRaw m) = s.dm &&& ~~~m := rfl

theorem dmAfter_sendDigit (s : State) (pos : Nat) (v : Byte) (dot : Bool) :
    dmAfter s (.sendDigit pos v dot) =
      if bcdCapable v then s.dm ||| digitBit (pos - 1) else s.dm &&& ~~~digitBit (pos - 1) := rfl

theorem dmAfter_sendChar (s : State) (pos : Nat) (g : Glyph) (dot : Bool) :
    dmAfter s (.sendChar pos g dot) = s.dm ||| digitBit (pos - 1) := rfl

/-- What a completed instruction returns to the host. -/
def returned (s : State) : Instr → Option QueryResult
  | .bitmaskFor ds => some (.mask (maskOf ds))
  | .bitmaskForNum n => some (.mask (maskOf (compositeDigits n)))
  | .isBcd d => some (.bcd (dmBit s.dm d))
  | _ => none

/-- The instruction is a query: it emits nothing. -/
def isQuery : Instr → Bool
  | .bitmaskFor _ | .bitmaskForNum _ | .isBcd _ => true
  | _ => false

/-- `DIR` after a completed instruction: INIT configures all three pins (R24). -/
def dirAfter (s : State) : Instr → Lines Bool
  | .init _ _ _ _ _ => allOutputs
  | _ => s.dir

/-- The pin identifiers after a completed instruction: INIT is given them (R21). -/
def pinsAfter (s : State) : Instr → Option Pins
  | .init din clk load _ _ => some ⟨din, clk, load⟩
  | _ => s.pins

/-- The state after a completed instruction. -/
def doneState (i : Instr) (s : State) : State :=
  { s with
    lc := leftLifecycle i
    dm := dmAfter s i
    lines := if isQuery i then s.lines else linesLow
    dir := dirAfter s i
    wt := s.wt ++ emitted s i
    pt := s.pt ++ configCalls i ++ wordsPins (emitted s i)
    ci := s.ci + 1
    pins := pinsAfter s i
    result := returned s i }

/-- The state after a ContractViolation with the given FINFO. -/
def faultedState (f : FaultInfo) (s : State) : State := { s with fault := true, finfo := some f }

/-- A completed emitting command that keeps everything but its words, `DM`, `ci` and the result. -/
theorem complete_withWords_doneState {i : Instr} {s : State} (ws : List Word) (dm : Byte)
    (hlc : leftLifecycle i = s.lc) (hws : emitted s i = ws) (hdm : dmAfter s i = dm) (hq : isQuery i = false)
    (hcfg : configCalls i = []) (hret : returned s i = none) (hdir : dirAfter s i = s.dir)
    (hpins : pinsAfter s i = s.pins) :
    complete none (withWords s ws dm) = .next (doneState i s) := by
  subst hws hdm
  simp only [doneState, hlc, hq, hcfg, hret, hdir, hpins, complete, withWords]
  simp

/-- A completed query: only `ci` and the returned value change. -/
theorem complete_query {i : Instr} {s : State} {r : Option QueryResult} (hq : isQuery i = true)
    (hlc : leftLifecycle i = s.lc) (hret : returned s i = r) (hdm : dmAfter s i = s.dm) :
    complete r s = .next (doneState i s) := by
  cases i <;> simp_all [isQuery, doneState, complete, emitted, configCalls, dirAfter, pinsAfter]

theorem configurePins_eq (din clk load : PinId) (sl it : Byte) (s : State) :
    configurePins din clk load s =
      { s with
        pins := some ⟨din, clk, load⟩, dir := allOutputs, lines := linesLow
        pt := s.pt ++ configCalls (.init din clk load sl it) } := by
  simp only [configurePins, configureLow, pinSet, pinCfgOut, putLine, levelOf, List.append_assoc, List.cons_append,
    List.nil_append]
  rfl

theorem setIntensity_eq (v : Byte) (s : State) : setIntensity v s = withWords s [regWord 0x0A (intensityData v)] s.dm :=
  emitWord_eq_withWords _ _

theorem setScanLimit_eq (sl : Byte) (s : State) :
    setScanLimit sl s = withWords s [regWord 0x0B (scanData s.cfg.scanLimitMode sl)] s.dm :=
  emitWord_eq_withWords _ _

theorem setShutdown_eq (b : Bool) (s : State) : setShutdown b s = withWords s [regWord 0x0C (shutdownData b)] s.dm :=
  emitWord_eq_withWords _ _

/-- INIT's word sequence (R200, R201). -/
theorem initWords_eq (sl it : Byte) (s : State) :
    initWords sl it s =
      withWords s
        ([regWord 0x0B (scanData s.cfg.scanLimitMode sl), regWord 0x0A (intensityData it), regWord 0x09 0xFF] ++
          bcdWords 0xFF (sameEverywhere 0x0F) ++ [regWord 0x0C 0x01]) 0xFF := by
  have hor : (0xFF : Byte) ||| 0xFF = 0xFF := by decide
  simp only [initWords, setScanLimit_eq, setIntensity_eq, setBcd_eq, clearDisplay_eq, setShutdown_eq, withWords_withWords,
    withWords_dm, hor]
  rfl

/-- A legal position or a violation: SEND_DIGIT and SEND_CHAR. -/
theorem sendDigitChecked_legal {op : Opcode} {pos : Nat} (h : ¬ (pos < 1 ∨ pos > 8)) (v : Byte) (dot : Bool) (s : State) :
    sendDigitChecked op pos v dot s = complete none (sendDigit pos v dot s) := by
  rw [sendDigitChecked, if_neg h]

theorem sendDigitChecked_illegal {op : Opcode} {pos : Nat} (h : pos < 1 ∨ pos > 8) (v : Byte) (dot : Bool) (s : State) :
    sendDigitChecked op pos v dot s = .next (faultedState ⟨.positionRange, opcodeByte op, pos⟩ s) := by
  rw [sendDigitChecked, if_pos h]; rfl

theorem bcdCapable_glyphCode (g : Glyph) : bcdCapable (glyphCode g) = true := by cases g <;> decide

/-- Everything an accepted instruction can do: a ContractViolation, or completion. -/
theorem exec_accepted {i : Instr} {s : State} (hf : s.fault = false) (hl : s.lc = neededLifecycle i) :
    exec i s = .next (match violation i with | some f => faultedState f s | none => doneState i s) := by
  cases i with
  | sendWord w =>
    replace hl : s.lc = .live := hl
    simp only [exec, execSendWord, whenAllowed_run hf hl, emitWord_eq_withWords]
    exact complete_withWords_doneState (i := .sendWord w) (s := s) _ _ hl.symm rfl rfl rfl rfl rfl rfl rfl
  | bitmaskFor ds =>
    replace hl : s.lc = .live := hl
    simp only [exec, execBitmaskFor, whenAllowed_run hf hl]
    exact complete_query rfl hl.symm rfl rfl
  | bitmaskForNum n =>
    replace hl : s.lc = .live := hl
    simp only [exec, execBitmaskForNum, whenAllowed_run hf hl]
    exact complete_query rfl hl.symm rfl rfl
  | isBcd d =>
    replace hl : s.lc = .live := hl
    simp only [exec, execIsBcd, whenAllowed_run hf hl, violation]
    by_cases hd : d > 7
    · simp only [hd, if_true]; rfl
    · simp only [hd, if_false]
      exact complete_query rfl hl.symm rfl rfl
  | setBcd m =>
    replace hl : s.lc = .live := hl
    simp only [exec, execSetBcd, whenAllowed_run hf hl, setBcd_eq]
    exact complete_withWords_doneState (i := .setBcd m) (s := s) _ _ hl.symm rfl rfl rfl rfl rfl rfl rfl
  | setRaw m =>
    replace hl : s.lc = .live := hl
    simp only [exec, execSetRaw, whenAllowed_run hf hl, setRaw_eq]
    exact complete_withWords_doneState (i := .setRaw m) (s := s) _ _ hl.symm rfl rfl rfl rfl rfl rfl rfl
  | sendDigit pos v dot =>
    replace hl : s.lc = .live := hl
    simp only [exec, execSendDigit, whenAllowed_run hf hl, violation]
    by_cases hp : pos < 1 ∨ pos > 8
    · rw [sendDigitChecked_illegal hp, if_pos hp]; rfl
    · rw [sendDigitChecked_legal hp, if_neg hp]
      cases hv : bcdCapable v
      · have hws : emitted s (.sendDigit pos v dot) = rawWords s.dm pos v := by
          simp only [emitted, hv]; rfl
        have hdm : dmAfter s (.sendDigit pos v dot) = s.dm &&& ~~~digitBit (pos - 1) := by
          show (if bcdCapable v then s.dm ||| digitBit (pos - 1) else _) = _
          rw [hv]; rfl
        rw [sendDigit_raw hv]
        exact complete_withWords_doneState (i := .sendDigit pos v dot) (s := s) _ _ hl.symm hws hdm rfl rfl rfl rfl rfl
      · have hws : emitted s (.sendDigit pos v dot) = bcdWords s.dm [(pos, digitData v dot)] := by
          simp only [emitted, hv, if_true]
        have hdm : dmAfter s (.sendDigit pos v dot) = bcdMask s.dm [(pos, digitData v dot)] := by
          show (if bcdCapable v then s.dm ||| digitBit (pos - 1) else _) = _
          rw [hv]; rfl
        rw [sendDigit_bcd hv]
        exact complete_withWords_doneState (i := .sendDigit pos v dot) (s := s) _ _ hl.symm hws hdm rfl rfl rfl rfl rfl
  | sendChar pos g dot =>
    replace hl : s.lc = .live := hl
    simp only [exec, execSendChar, whenAllowed_run hf hl, violation]
    by_cases hp : pos < 1 ∨ pos > 8
    · rw [sendDigitChecked_illegal hp, if_pos hp]; rfl
    · rw [sendDigitChecked_legal hp, if_neg hp, sendDigit_bcd (bcdCapable_glyphCode g)]
      exact complete_withWords_doneState (i := .sendChar pos g dot) (s := s) _ _ hl.symm rfl rfl rfl rfl rfl rfl rfl
  | sendNumberInt n =>
    replace hl : s.lc = .live := hl
    simp only [exec, execSendNumberInt, whenAllowed_run hf hl,
      sendCalls_entries (intCalls_ne_nil n) (fun c hc => intCalls_bcd hc) (intCalls_map_entry n)]
    exact complete_withWords_doneState (i := .sendNumberInt n) (s := s) _ _ hl.symm rfl rfl rfl rfl rfl rfl rfl
  | sendNumberDec x p =>
    replace hl : s.lc = .live := hl
    simp only [exec, execSendNumberDec, whenAllowed_run hf hl, violation]
    by_cases hx : f64NonFinite x = true
    · simp only [hx, if_true]; rfl
    · simp only [hx, sendCalls_entries (decCalls_ne_nil _ _ _) (fun c hc => decCalls_bcd hc) (decCalls_map_entry _ _ _)]
      exact complete_withWords_doneState (i := .sendNumberDec x p) (s := s) _ _ hl.symm rfl rfl rfl rfl rfl rfl rfl
  | setIntensity v =>
    replace hl : s.lc = .live := hl
    simp only [exec, execSetIntensity, whenAllowed_run hf hl, setIntensity_eq]
    exact complete_withWords_doneState (i := .setIntensity v) (s := s) _ _ hl.symm rfl rfl rfl rfl rfl rfl rfl
  | setScanLimit sl =>
    replace hl : s.lc = .live := hl
    simp only [exec, execSetScanLimit, whenAllowed_run hf hl, setScanLimit_eq]
    exact complete_withWords_doneState (i := .setScanLimit sl) (s := s) _ _ hl.symm rfl rfl rfl rfl rfl rfl rfl
  | setShutdown b =>
    replace hl : s.lc = .live := hl
    simp only [exec, execSetShutdown, whenAllowed_run hf hl, setShutdown_eq]
    exact complete_withWords_doneState (i := .setShutdown b) (s := s) _ _ hl.symm rfl rfl rfl rfl rfl rfl rfl
  | setDisplayTest b =>
    replace hl : s.lc = .live := hl
    simp only [exec, execSetDisplayTest, whenAllowed_run hf hl, emitWord_eq_withWords]
    exact complete_withWords_doneState (i := .setDisplayTest b) (s := s) _ _ hl.symm rfl rfl rfl rfl rfl rfl rfl
  | sendNop d =>
    replace hl : s.lc = .live := hl
    simp only [exec, execSendNop, whenAllowed_run hf hl, emitWord_eq_withWords]
    exact complete_withWords_doneState (i := .sendNop d) (s := s) _ _ hl.symm rfl rfl rfl rfl rfl rfl rfl
  | clear =>
    replace hl : s.lc = .live := hl
    simp only [exec, execClear, whenAllowed_run hf hl, clearDisplay_eq]
    exact complete_withWords_doneState (i := .clear) (s := s) _ _ hl.symm rfl rfl rfl rfl rfl rfl rfl
  | fillZeros =>
    replace hl : s.lc = .live := hl
    simp only [exec, execFillZeros, whenAllowed_run hf hl,
      sendCalls_allPositions (show bcdCapable 0x00 = true by decide)]
    exact complete_withWords_doneState (i := .fillZeros) (s := s) _ _ hl.symm rfl rfl rfl rfl rfl rfl rfl
  | init din clk load sl it =>
    replace hl : s.lc = .uninit := hl
    simp only [exec, execInit, whenAllowed_run hf hl, violation, initWords_eq, configurePins_eq din clk load sl it]
    rfl
  | fini =>
    replace hl : s.lc = .live := hl
    simp only [exec, execFini, whenAllowed_run hf hl, violation, clearDisplay_eq, setShutdown_eq, withWords_withWords,
      withWords_dm]
    simp only [complete, withWords, doneState, configCalls, List.append_nil]
    rfl
  | noop _ | digit1 _ | digit2 _ | digit3 _ | digit4 _ | digit5 _ | digit6 _ | digit7 _ | digit8 _ | decodeMode _
  | intensity _ | scanLimit _ | shutdown _ | displayTest _ =>
    replace hl : s.lc = .live := hl
    simp only [exec, execNoop, execDigit1, execDigit2, execDigit3, execDigit4, execDigit5, execDigit6, execDigit7,
      execDigit8, execDecodeMode, execIntensity, execScanLimit, execShutdown, execDisplayTest, sendRegisterWord,
      whenAllowed_run hf hl, emitWord_eq_withWords]
    exact complete_withWords_doneState _ _ hl.symm rfl rfl rfl rfl rfl rfl rfl

/-- Every meaning begins with R222's checks, for the lifecycle state R20 asks for. -/
theorem exec_whenAllowed (i : Instr) (s : State) : ∃ run, exec i s = whenAllowed (neededLifecycle i) s run := by
  cases i <;>
    simp only [neededLifecycle, exec, execSendWord, execBitmaskFor, execBitmaskForNum, execIsBcd, execSetBcd, execSetRaw,
      execSendDigit, execSendChar, execSendNumberInt, execSendNumberDec, execSetIntensity, execSetScanLimit,
      execSetShutdown, execSetDisplayTest, execSendNop, execClear, execFillZeros, execInit, execFini, execNoop,
      execDigit1, execDigit2, execDigit3, execDigit4, execDigit5, execDigit6, execDigit7, execDigit8, execDecodeMode,
      execIntensity, execScanLimit, execShutdown, execDisplayTest, sendRegisterWord] <;>
    exact ⟨_, rfl⟩

/-- `FAULT = 1` refuses every instruction (R222 (3)). -/
theorem exec_faulted (i : Instr) {s : State} (hf : s.fault = true) : exec i s = .refused .faulted := by
  obtain ⟨run, h⟩ := exec_whenAllowed i s
  rw [h, whenAllowed_faulted hf]

/-- The wrong lifecycle state refuses an instruction (R222 (2)). -/
theorem exec_lifecycle {i : Instr} {s : State} (hf : s.fault = false) (hl : s.lc ≠ neededLifecycle i) :
    exec i s = .refused (.lifecycle s.lc) := by
  obtain ⟨run, h⟩ := exec_whenAllowed i s
  rw [h, whenAllowed_lifecycle hf hl]

/-- The cases of a next state of `exec`. -/
theorem exec_next {i : Instr} {s t : State} (h : exec i s = .next t) :
    s.fault = false ∧ s.lc = neededLifecycle i ∧
      ((∃ f, violation i = some f ∧ t = faultedState f s) ∨ (violation i = none ∧ t = doneState i s)) := by
  obtain ⟨run, hrun⟩ := exec_whenAllowed i s
  obtain ⟨hf, hl, -⟩ := whenAllowed_next (hrun ▸ h)
  refine ⟨hf, hl, ?_⟩
  rw [exec_accepted hf hl] at h
  cases hv : violation i with
  | some f => left; rw [hv] at h; exact ⟨f, rfl, (Host.Outcome.next.inj h).symm⟩
  | none => right; rw [hv] at h; exact ⟨rfl, (Host.Outcome.next.inj h).symm⟩

/-- Only an instruction whose operand breaks its contract violates, and none of those is INIT or FINI. -/
theorem neededLifecycle_of_violation {i : Instr} {f : FaultInfo} (h : violation i = some f) :
    neededLifecycle i = .live := by
  cases i <;> first | rfl | simp [violation] at h

/-- The cases of a next state of `step`: the unit at `ci` decodes, and its instruction has a next state. -/
theorem step_next {s t : State} (h : step s = .next t) :
    ∃ u i, fetchUnit s = some u ∧ decode s.cfg u = .ok i ∧ exec i s = .next t := by
  unfold step at h
  split at h
  · cases h
  · rename_i u hu
    split at h
    · cases h
    · rename_i i hi
      exact ⟨u, i, hu, hi, h⟩

end Sys2Proof.Machine
end

