-- ==== Sys2Proof/Laws/Receiver.lean ====
section
/-! SUPPORT. The reference receiver over whole words, the register view, and the pin order of whole words. -/

namespace Sys2Proof.Machine

/-! ### The receiver -/

theorem receiveAll_append (unknown : Bool) (a b : List PinCall) (r : Receiver) :
    receiveAll unknown (a ++ b) r = receiveAll unknown b (receiveAll unknown a r) := by
  simp [receiveAll]

@[simp] theorem risingEdge_false (before : Level) : risingEdge before false = false := by simp [risingEdge]

/-- The three entries of one bit step shift the bit in, whatever the clock was. -/
theorem receive_bit (unknown b : Bool) (rest : List PinCall) (r : Receiver) :
    receiveAll unknown (.set .clk false :: .set .din b :: .set .clk true :: rest) r =
      receiveAll unknown rest ⟨shiftIn r.sr b, ⟨levelOf b, .high, r.lines.load⟩, r.rwt⟩ := by
  cases b <;>
    simp [receiveAll, receiveCall, lineOf, putLine, levelOf, sampledBit, risingEdge]

/-- The entries of bits `n - 1` down to 0. -/
def bitEntries (w : Word) : Nat → List PinCall
  | 0 => []
  | n + 1 => .set .clk false :: .set .din (w.getLsbD n) :: .set .clk true :: bitEntries w n

theorem wordPins_eq (w : Word) :
    wordPins w =
      .set .load false :: (bitEntries w 16 ++ [.set .clk false, .set .load true, .set .load false, .set .din false]) :=
  rfl

/-- The shift register after the lowest `n` bits of `w`. -/
def shiftBits (w : Word) : Nat → Word → Word
  | 0, sr => sr
  | n + 1, sr => shiftBits w n (shiftIn sr (w.getLsbD n))

theorem getLsbD_shiftIn (sr : Word) (b : Bool) (j : Nat) (hj : j < 16) :
    (shiftIn sr b).getLsbD j = if j = 0 then b else sr.getLsbD (j - 1) := by
  by_cases h : j = 0
  · subst h; cases b <;> simp [shiftIn]
  · have h1 : 1 ≤ j := by omega
    have h0 : (BitVec.zeroExtend 16 (BitVec.ofBool b)).getLsbD j = false := by
      have hw : ¬ j < 1 := by omega
      simp [h]
    simp only [shiftIn, BitVec.getLsbD_or, h0, h, BitVec.getLsbD_shiftLeft]
    simp [hj, h]

theorem getLsbD_shiftBits (w : Word) (n : Nat) (sr : Word) (j : Nat) (hj : j < 16) :
    (shiftBits w n sr).getLsbD j = if j < n then w.getLsbD j else sr.getLsbD (j - n) := by
  induction n generalizing sr with
  | zero => simp [shiftBits]
  | succ n ih =>
    rw [shiftBits, ih]
    by_cases h : j < n
    · simp [h, Nat.lt_succ_of_lt h]
    · by_cases he : j = n
      · subst he
        rw [if_neg h, if_pos (Nat.lt_succ_self j), Nat.sub_self, getLsbD_shiftIn _ _ _ (by decide), if_pos rfl]
      · have h1 : ¬ j < n + 1 := by omega
        have h2 : j - n ≠ 0 := by omega
        simp only [h, h1, if_false]
        rw [getLsbD_shiftIn _ _ _ (by omega), if_neg h2]
        congr 1

/-- Sixteen bits replace the whole register (R105). -/
theorem shiftBits_all (w sr : Word) : shiftBits w 16 sr = w := by
  apply BitVec.eq_of_getLsbD_eq
  intro j hj
  rw [getLsbD_shiftBits _ _ _ _ hj, if_pos hj]

theorem receive_bits (unknown : Bool) (w : Word) (n : Nat) (rest : List PinCall) (r : Receiver) :
    ∃ d c, receiveAll unknown (bitEntries w n ++ rest) r =
      receiveAll unknown rest ⟨shiftBits w n r.sr, ⟨d, c, r.lines.load⟩, r.rwt⟩ := by
  induction n generalizing r with
  | zero => exact ⟨r.lines.din, r.lines.clk, rfl⟩
  | succ n ih =>
    simp only [bitEntries, List.cons_append, receive_bit]
    exact ih _

/-- Replaying one word latches exactly that word and leaves the lines low, whatever stood before (R103, R105). -/
theorem receive_word (unknown : Bool) (w : Word) (r : Receiver) :
    receiveAll unknown (wordPins w) r = ⟨w, linesLow, r.rwt ++ [w]⟩ := by
  have hfirst : receiveAll unknown (wordPins w) r =
      receiveAll unknown
        (bitEntries w 16 ++ [.set .clk false, .set .load true, .set .load false, .set .din false])
        ⟨r.sr, ⟨r.lines.din, r.lines.clk, .low⟩, r.rwt⟩ := by
    simp [wordPins_eq, receiveAll, receiveCall, putLine, levelOf]
  obtain ⟨d, c, h⟩ := receive_bits unknown w 16
    [.set .clk false, .set .load true, .set .load false, .set .din false]
    ⟨r.sr, ⟨r.lines.din, r.lines.clk, .low⟩, r.rwt⟩
  rw [hfirst, h, shiftBits_all]
  simp [receiveAll, receiveCall, lineOf, putLine, levelOf, risingEdge, linesLow]

/-- Replaying words, at least one, appends them to `RWT`. -/
theorem receive_words (unknown : Bool) (ws : List Word) (r : Receiver) :
    (receiveAll unknown (wordsPins ws) r).rwt = r.rwt ++ ws ∧
      (receiveAll unknown (wordsPins ws) r).lines = if ws = [] then r.lines else linesLow := by
  induction ws generalizing r with
  | nil => simp [receiveAll]
  | cons w ws ih =>
    rw [wordsPins_cons, receiveAll_append, receive_word]
    obtain ⟨h1, h2⟩ := ih ⟨w, linesLow, r.rwt ++ [w]⟩
    refine ⟨by rw [h1]; simp, ?_⟩
    rw [h2]
    by_cases hws : ws = [] <;> simp [hws]

/-- INIT's six configuration calls: no edge, and the lines low. -/
theorem receive_config (unknown : Bool) (din clk load : PinId) (sl it : Byte) (r : Receiver) :
    (receiveAll unknown (configCalls (.init din clk load sl it)) r).lines = linesLow ∧
      (receiveAll unknown (configCalls (.init din clk load sl it)) r).rwt = r.rwt := by
  simp [configCalls, receiveAll, receiveCall, putLine, levelOf, linesLow]

/-! ### Pin order -/

/-- The line levels after a pin trace. -/
def levelsAfter (l : Lines Level) (calls : List PinCall) : Lines Level :=
  calls.foldl (fun l c => match c with | .out _ => l | .set p b => putLine l p (levelOf b)) l

theorem pinOrderOk_append (l : Lines Level) (a b : List PinCall) :
    pinOrderOk l (a ++ b) = (pinOrderOk l a && pinOrderOk (levelsAfter l a) b) := by
  induction a generalizing l with
  | nil => simp [pinOrderOk, levelsAfter]
  | cons c a ih =>
    cases c with
    | out p => simpa [pinOrderOk, levelsAfter] using ih l
    | set p v =>
      cases p <;> simp only [List.cons_append, pinOrderOk, ih, Bool.and_assoc] <;> rfl

theorem levelsAfter_append (l : Lines Level) (a b : List PinCall) :
    levelsAfter l (a ++ b) = levelsAfter (levelsAfter l a) b := by
  simp [levelsAfter]

/-- The receiver's line levels are those of the trace. -/
theorem receiveAll_lines (unknown : Bool) (calls : List PinCall) (r : Receiver) :
    (receiveAll unknown calls r).lines = levelsAfter r.lines calls := by
  induction calls generalizing r with
  | nil => rfl
  | cons c calls ih =>
    have hstep : receiveAll unknown (c :: calls) r = receiveAll unknown calls (receiveCall unknown r c) := rfl
    rw [hstep, ih]
    cases c with
    | out p => rfl
    | set p v =>
      cases p
      · rfl
      · simp only [receiveCall]; split <;> rfl
      · simp only [receiveCall]; split <;> rfl

/-- One word keeps the pin order, from any levels (R104). -/
theorem pinOrderOk_word (l : Lines Level) (w : Word) : pinOrderOk l (wordPins w) = true := by
  simp [wordPins_eq, bitEntries, pinOrderOk, levelOf]

theorem pinOrderOk_words (l : Lines Level) (ws : List Word) : pinOrderOk l (wordsPins ws) = true := by
  induction ws generalizing l with
  | nil => rfl
  | cons w ws ih => rw [wordsPins_cons, pinOrderOk_append, pinOrderOk_word, ih]; rfl

/-! ### The register view -/

/-- The bits of a register word: the data byte below, the address byte above (R60). -/
theorem getLsbD_regWord (a d : Byte) (j : Nat) :
    (regWord a d).getLsbD j = if j < 8 then d.getLsbD j else a.getLsbD (j - 8) :=
  BitVec.getLsbD_append (x := a) (y := d)

theorem wordAddr_regWord (a d : Byte) : wordAddr (regWord a d) = a := by
  apply BitVec.eq_of_getLsbD_eq
  intro j hj
  simp only [wordAddr, BitVec.getLsbD_extractLsb', getLsbD_regWord, hj]
  simp

theorem wordData_regWord (a d : Byte) : wordData (regWord a d) = d := by
  apply BitVec.eq_of_getLsbD_eq
  intro j hj
  simp only [wordData, BitVec.getLsbD_extractLsb', getLsbD_regWord, hj]
  simp [hj]

/-- The register a word selects: the low nibble of its address byte (R46). -/
theorem select_regWord (a d : Byte) : (regWord a d).extractLsb' 8 4 = a.extractLsb' 0 4 := by
  apply BitVec.eq_of_getLsbD_eq
  intro j hj
  simp only [BitVec.getLsbD_extractLsb', getLsbD_regWord, hj]
  simp

theorem regView_append (us vs : List Word) (a : BitVec 4) :
    regView (us ++ vs) a = vs.foldl (applyWord a) (regView us a) := by
  simp [regView]

theorem applyWord_regWord (a : BitVec 4) (reg : Option Byte) (addr data : Byte) :
    applyWord a reg (regWord addr data) =
      if viewedAddress a && addr.extractLsb' 0 4 == a then some data else reg := by
  simp only [applyWord, select_regWord, wordData_regWord]

/-! ### The words of a BCD stream -/

theorem bcdWords_length (dm : Byte) (es : List DigitEntry) :
    es.length ≤ (bcdWords dm es).length ∧ (bcdWords dm es).length ≤ 2 * es.length := by
  induction es generalizing dm with
  | nil => simp [bcdWords]
  | cons e es ih =>
    obtain ⟨h1, h2⟩ := ih (dm ||| digitBit (e.1 - 1))
    simp only [bcdWords, List.length_append, List.length_cons]
    split <;> simp <;> omega

/-- Every word of a BCD stream is a DECODE_MODE word or one of its DIGIT words. -/
theorem mem_bcdWords {w : Word} {dm : Byte} {es : List DigitEntry} (h : w ∈ bcdWords dm es) :
    (∃ m, w = regWord 0x09 m) ∨ ∃ e ∈ es, w = regWord (BitVec.ofNat 8 e.1) e.2 := by
  induction es generalizing dm with
  | nil => simp [bcdWords] at h
  | cons e es ih =>
    simp only [bcdWords, List.mem_append, List.mem_cons] at h
    rcases h with h | h | h
    · split at h
      · simp at h
      · simp only [List.mem_singleton] at h; exact .inl ⟨_, h⟩
    · exact .inr ⟨e, by simp, h⟩
    · rcases ih h with h | ⟨e', he', h⟩
      · exact .inl h
      · exact .inr ⟨e', List.mem_cons_of_mem _ he', h⟩

theorem position_address {pos : Nat} (h1 : 1 ≤ pos) (h8 : pos ≤ 8) :
    (BitVec.ofNat 8 pos).extractLsb' 0 4 ≠ 0x9#4 := by
  interval_cases pos <;> decide

/-- A BCD stream at positions 1 to 8 keeps the chip's decode-mode register equal to `DM`. -/
theorem bcdWords_coherent {reg : Option Byte} {dm : Byte} (es : List DigitEntry) (hreg : reg = some dm)
    (hpos : ∀ e ∈ es, 1 ≤ e.1 ∧ e.1 ≤ 8) :
    (bcdWords dm es).foldl (applyWord 0x9) reg = some (bcdMask dm es) := by
  induction es generalizing reg dm with
  | nil => simpa [bcdWords, bcdMask] using hreg
  | cons e es ih =>
    obtain ⟨h1, h8⟩ := hpos e (by simp)
    have hdigit : ∀ r : Option Byte, applyWord 0x9 r (regWord (BitVec.ofNat 8 e.1) e.2) = r := by
      intro r
      rw [applyWord_regWord]
      simp [position_address h1 h8]
    have hmode : ∀ (r : Option Byte) (m : Byte), applyWord 0x9 r (regWord 0x09 m) = some m := by
      intro r m
      rw [applyWord_regWord]
      rfl
    have hrest := fun r hr => ih (reg := r) (dm := dm ||| digitBit (e.1 - 1)) hr
      fun e' he' => hpos e' (List.mem_cons_of_mem _ he')
    simp only [bcdWords, List.foldl_append, List.foldl_cons, hdigit]
    rw [bcdMask_cons]
    cases hb : dmBit dm (e.1 - 1)
    · exact hrest _ (hmode _ _)
    · refine hrest _ ?_
      simpa [hb, or_digitBit_self hb] using hreg

/-! ### Positions of the number streams -/

theorem mem_placeDigits {e : DigitEntry} {pos : Nat} {ds : List Nat} (h : e ∈ placeDigits pos ds) :
    pos ≤ e.1 ∧ e.1 < pos + ds.length := by
  induction ds generalizing pos with
  | nil => simp [placeDigits] at h
  | cons d ds ih =>
    rcases List.mem_cons.mp h with rfl | h
    · simp
    · have := ih h; simp; omega

@[simp] theorem placeDigits_length (pos : Nat) (ds : List Nat) : (placeDigits pos ds).length = ds.length := by
  induction ds generalizing pos with
  | nil => rfl
  | cons d ds ih => simp [placeDigits, ih]

theorem decimalDigits_ne_nil (n : Nat) : decimalDigits n ≠ [] := by
  intro h
  have := decimalDigits_length n
  simp [h] at this

/-- The positions of SEND_NUMBER_INT (R161). -/
theorem intEntries_positions {n : Int} {e : DigitEntry} (h : e ∈ intEntries n) : 1 ≤ e.1 ∧ e.1 ≤ 8 := by
  unfold intEntries at h
  simp only [List.mem_append] at h
  rcases h with h | h
  · have := mem_placeDigits h
    simp at this
    omega
  · split at h
    · simp only [List.mem_singleton] at h; subst h; simp; omega
    · simp at h

theorem fractionEntries_positions {fracPad : Bool} {p fp : Nat} {e : DigitEntry} (h : e ∈ fractionEntries fracPad p fp) :
    1 ≤ e.1 ∧ e.1 ≤ min p 8 := by
  unfold fractionEntries at h
  split at h <;> have := mem_placeDigits h <;> simp at this <;> omega

theorem integerEntries_length {p : Nat} (hp : p ≤ 7) (ip : Nat) :
    (integerEntries p ip).length = min (decimalDigits ip).length (8 - p) := by
  rw [← integerCalls_map_entry hp, List.length_map, integerCalls_length hp]

theorem integerEntries_positions {p ip : Nat} {e : DigitEntry} (hp : p ≤ 7) (h : e ∈ integerEntries p ip) :
    p + 1 ≤ e.1 ∧ e.1 ≤ 8 := by
  unfold integerEntries at h
  rcases List.mem_cons.mp h with rfl | h
  · simp; omega
  · have := mem_placeDigits h
    simp at this
    omega

/-- The positions of SEND_NUMBER_DEC (R165). -/
theorem decEntries_positions {fracPad : Bool} {p : Nat} {parts : SplitParts} {e : DigitEntry}
    (h : e ∈ decEntries fracPad p parts) : 1 ≤ e.1 ∧ e.1 ≤ 8 := by
  unfold decEntries at h
  simp only [List.mem_append] at h
  rcases h with h | h
  · have := fractionEntries_positions h; omega
  · split at h
    · rename_i hp
      rcases List.mem_append.mp h with h | h
      · have := integerEntries_positions hp h; omega
      · split at h
        · simp only [List.mem_singleton] at h; subst h; simp; omega
        · simp at h
    · simp at h

/-- SEND_NUMBER_INT writes 1 to 8 positions (R249). -/
theorem intEntries_length (n : Int) : 1 ≤ (intEntries n).length ∧ (intEntries n).length ≤ 8 := by
  have hne : (decimalDigits n.natAbs).length ≠ 0 := by simpa using decimalDigits_ne_nil n.natAbs
  simp only [intEntries, List.length_append, placeDigits_length, List.length_take]
  split <;> simp <;> omega

theorem fractionEntries_length (fracPad : Bool) (p fp : Nat) : (fractionEntries fracPad p fp).length ≤ min p 8 := by
  unfold fractionEntries
  split <;> simp

/-- SEND_NUMBER_DEC writes 1 to 8 positions (R249). -/
theorem decEntries_length (fracPad : Bool) (p : Nat) (parts : SplitParts) :
    1 ≤ (decEntries fracPad p parts).length ∧ (decEntries fracPad p parts).length ≤ 8 := by
  constructor
  · have hne := decCalls_ne_nil fracPad p parts
    have hlen := congrArg List.length (decCalls_map_entry fracPad p parts)
    rw [List.length_map] at hlen
    rw [← hlen]
    exact List.length_pos_iff.mpr hne
  · have hf := fractionEntries_length fracPad p parts.fp
    unfold decEntries
    by_cases hp : p ≤ 7
    · simp only [hp, if_true, List.length_append, integerEntries_length hp]
      split <;> simp <;> omega
    · simp only [hp, if_false, List.append_nil]; omega

end Sys2Proof.Machine
end

