-- ==== Sys2Proof/Laws/DecimalPoint.lean ====
section
/-! SUPPORT. Where SEND_NUMBER_DEC writes and where its decimal point stands (43_number_encoder.md R165): of its table of
entries, and of the digit words among the words it sends. -/

namespace Sys2Proof.Machine

/-- A word to one of the eight digit registers (R73). -/
def isDigitWord (w : Word) : Bool := 1 ≤ (wordAddr w).toNat && (wordAddr w).toNat ≤ 8

/-- The digit word of an entry. -/
def entryWord (e : DigitEntry) : Word := regWord (BitVec.ofNat 8 e.1) e.2

/-! ### The entries -/

theorem mem_placeDigits_value {e : DigitEntry} {pos : Nat} {ds : List Nat} (h : e ∈ placeDigits pos ds) :
    ∃ d ∈ ds, e.2 = BitVec.ofNat 8 d := by
  induction ds generalizing pos with
  | nil => simp [placeDigits] at h
  | cons d ds ih =>
    rcases List.mem_cons.mp h with rfl | h
    · exact ⟨d, by simp, rfl⟩
    · obtain ⟨d', hd', hv⟩ := ih h
      exact ⟨d', List.mem_cons_of_mem _ hd', hv⟩

/-- Decimal digits carry no dot. -/
theorem placeDigits_no_dot {e : DigitEntry} {pos : Nat} {ds : List Nat} (h : e ∈ placeDigits pos ds)
    (hds : ∀ d ∈ ds, d < 10) : e.2.getLsbD 7 = false := by
  obtain ⟨d, hd, hv⟩ := mem_placeDigits_value h
  have := hds d hd
  rw [hv]
  interval_cases d <;> rfl

theorem lt_ten_of_mem_decimalDigits {n d : Nat} (h : d ∈ decimalDigits n) : d < 10 := by
  unfold decimalDigits at h
  split at h
  · simp at h; omega
  · exact Nat.digits_lt_base (by decide) h

theorem fractionEntries_no_dot {fracPad : Bool} {p fp : Nat} {e : DigitEntry} (h : e ∈ fractionEntries fracPad p fp) :
    e.2.getLsbD 7 = false := by
  unfold fractionEntries at h
  split at h
  · refine placeDigits_no_dot h fun d hd => ?_
    obtain ⟨j, -, rfl⟩ := List.mem_map.mp hd
    exact Nat.mod_lt _ (by decide)
  · exact placeDigits_no_dot h fun d hd => Nat.digits_lt_base (by decide) (List.mem_of_mem_take hd)

theorem placeDigits_ascending (pos : Nat) (ds : List Nat) : (placeDigits pos ds).Pairwise fun a b => a.1 < b.1 := by
  induction ds generalizing pos with
  | nil => simp [placeDigits]
  | cons d ds ih =>
    refine List.pairwise_cons.mpr ⟨fun e he => ?_, ih _⟩
    have := mem_placeDigits he
    simp; omega

/-- The dash of R165 (4) stands above the integer digits. -/
theorem integer_dash_ascending {p ip : Nat} {neg : Bool} :
    (integerEntries p ip ++
      if neg ∧ p + min (decimalDigits ip).length (8 - p) + 1 ≤ 8 then
        [(p + min (decimalDigits ip).length (8 - p) + 1, 0x0A#8)] else []).Pairwise fun a b => a.1 < b.1 := by
  have hne : (decimalDigits ip).length ≠ 0 := by simpa using decimalDigits_ne_nil ip
  refine List.pairwise_append.mpr ⟨?_, ?_, ?_⟩
  · refine List.pairwise_cons.mpr ⟨fun e he => ?_, placeDigits_ascending _ _⟩
    have := mem_placeDigits he
    simp; omega
  · split <;> simp
  · intro a ha b hb
    split at hb
    · rw [List.mem_singleton.mp hb]
      rcases List.mem_cons.mp ha with rfl | ha
      · simp; omega
      · have := mem_placeDigits ha
        simp at this
        simp; omega
    · simp at hb

/-- SEND_NUMBER_DEC's positions ascend (R165). -/
theorem decEntries_ascending (fracPad : Bool) (p : Nat) (parts : SplitParts) :
    (decEntries fracPad p parts).Pairwise fun a b => a.1 < b.1 := by
  refine List.pairwise_append.mpr ⟨?_, ?_, ?_⟩
  · unfold fractionEntries; split <;> exact placeDigits_ascending _ _
  · split
    · exact integer_dash_ascending
    · simp
  · intro a ha b hb
    have := fractionEntries_positions ha
    split at hb
    · rename_i hp
      rcases List.mem_append.mp hb with hb | hb
      · have := integerEntries_positions hp hb; omega
      · split at hb
        · rw [List.mem_singleton.mp hb]; simp; omega
        · simp at hb
    · simp at hb

/-- The one dotted entry of SEND_NUMBER_DEC (R162, R165 (2)). -/
theorem decEntries_filter_dot (fracPad : Bool) (p : Nat) (parts : SplitParts) :
    (decEntries fracPad p parts).filter (fun e => e.2.getLsbD 7) =
      if p ≤ 7 then [(p + 1, 0x80#8 ||| BitVec.ofNat 8 (parts.ip % 10))] else [] := by
  have hfrac : (fractionEntries fracPad p parts.fp).filter (fun e => e.2.getLsbD 7) = [] :=
    List.filter_eq_nil_iff.mpr fun e he => ne_true_of_eq_false (fractionEntries_no_dot he)
  have hhigh : ∀ q : Nat, (placeDigits q (((decimalDigits parts.ip).take (8 - p)).drop 1)).filter
      (fun e => e.2.getLsbD 7) = [] := fun q =>
    List.filter_eq_nil_iff.mpr fun e he => ne_true_of_eq_false <| placeDigits_no_dot he fun d hd =>
      lt_ten_of_mem_decimalDigits (List.mem_of_mem_take (List.mem_of_mem_drop hd))
  have hinteger : (integerEntries p parts.ip).filter (fun e => e.2.getLsbD 7) =
      [(p + 1, 0x80#8 ||| BitVec.ofNat 8 (parts.ip % 10))] := by
    have hdot : (0x80#8 ||| BitVec.ofNat 8 (parts.ip % 10)).getLsbD 7 = true := by
      rw [BitVec.getLsbD_or]; rfl
    exact (List.filter_cons_of_pos (p := fun e : DigitEntry => e.2.getLsbD 7) (a := (p + 1, _)) hdot).trans
      (congrArg (List.cons _) (hhigh (p + 2)))
  have hdash : ∀ (c : Prop) [Decidable c] (q : Nat),
      (if c then [(q, 0x0A#8)] else ([] : List DigitEntry)).filter (fun e => e.2.getLsbD 7) = [] := by
    intro c _ q; split <;> simp
  unfold decEntries
  rw [List.filter_append, hfrac, List.nil_append]
  split
  · exact (List.filter_append ..).trans ((congrArg₂ _ hinteger (hdash _ _)).trans (List.append_nil _))
  · rfl

/-! ### The words -/

theorem isDigitWord_mode (m : Byte) : isDigitWord (regWord 0x09 m) = false := by
  rw [isDigitWord, wordAddr_regWord]; rfl

theorem wordAddr_entryWord {e : DigitEntry} (h8 : e.1 ≤ 8) : (wordAddr (entryWord e)).toNat = e.1 := by
  rw [entryWord, wordAddr_regWord]; simp; omega

/-- The digit words of a BCD stream are its entries' words, in order: the rest are DECODE_MODE words. -/
theorem filter_isDigitWord_bcdWords (dm : Byte) (es : List DigitEntry) (hpos : ∀ e ∈ es, 1 ≤ e.1 ∧ e.1 ≤ 8) :
    (bcdWords dm es).filter isDigitWord = es.map entryWord := by
  induction es generalizing dm with
  | nil => rfl
  | cons e es ih =>
    obtain ⟨h1, h8⟩ := hpos e (by simp)
    have hdigit : isDigitWord (regWord (BitVec.ofNat 8 e.1) e.2) = true := by
      have := wordAddr_entryWord h8
      unfold entryWord at this
      simp [isDigitWord, this, h1, h8]
    have hmode : (if dmBit dm (e.1 - 1) then [] else [regWord 0x09 (dm ||| digitBit (e.1 - 1))]).filter isDigitWord =
        [] := by
      split
      · rfl
      · rw [List.filter_cons, isDigitWord_mode]; rfl
    have hrest := ih (dm ||| digitBit (e.1 - 1)) fun e' he' => hpos e' (List.mem_cons_of_mem _ he')
    simp only [bcdWords, List.filter_append, hmode, List.nil_append, List.filter_cons, hdigit, if_true, hrest]
    rfl

end Sys2Proof.Machine
end

