-- ==== Sys2Proof/Laws/PerInstr.lean ====
section
/-! SUPPORT. The per-instruction family `DecodeEncode`: decoding the encoding of an instruction that the configuration can
spell gives it back, with every operand at every value. One lemma per constructor of `Instr`. -/

namespace Sys2Proof.Laws.DecodeEncode

/-- Under any configuration that can spell `i`, decoding the encoding of `i` gives `i`. -/
def Statement (i : Instr) : Prop := ∀ cfg : Config, i.spellable cfg = true → decode cfg (encode i) = .ok i

/-- The data byte does not matter to the row a word belongs to. -/
theorem regWord_mask (a d : Byte) : regWord a d &&& 0xFF00 = regWord a 0x00 := by
  apply BitVec.eq_of_getLsbD_eq
  intro j hj
  have h : ∀ x : Byte, (regWord a x).getLsbD j = if j < 8 then x.getLsbD j else a.getLsbD (j - 8) := fun x =>
    BitVec.getLsbD_append (x := a) (y := x)
  rw [BitVec.getLsbD_and, h, h]
  interval_cases j <;> simp

/-- The operand of a row is the data byte. -/
theorem regWord_data (a d : Byte) : wordData (regWord a d) = d := by
  apply BitVec.eq_of_getLsbD_eq
  intro j hj
  have h : (regWord a d).getLsbD j = if j < 8 then d.getLsbD j else a.getLsbD (j - 8) :=
    BitVec.getLsbD_append (x := a) (y := d)
  simp only [wordData, BitVec.getLsbD_extractLsb', Nat.zero_add, h, hj]
  simp [hj]

/-- A word whose address is `a` decodes by the first row whose pattern is `a`'s. -/
theorem decodeWord_regWord (a d : Byte) :
    decodeWord (regWord a d) =
      match wordRows.find? fun r => regWord a 0x00 == r.pattern with
      | none => .error (.unnamedWord (regWord a d))
      | some r => .ok (r.make d) := by
  have hrows : (wordRows.find? fun r => regWord a d &&& r.mask == r.pattern) =
      wordRows.find? fun r => regWord a 0x00 == r.pattern := by
    simp only [wordRows, List.find?_cons, List.find?_nil, regWord_mask]
  unfold decodeWord
  rw [hrows, regWord_data]
  all_goals (cases wordRows.find? fun r => regWord a 0x00 == r.pattern <;> rfl)

/-- The byte of an opcode spells that opcode (R64). -/
theorem opcodeOf_opcodeByte (o : Opcode) : opcodeOf (opcodeByte o) = some o := by
  cases o <;> rfl

/-- A command with all its operands, none too wide, decodes to what its row spells. -/
theorem decode_commandUnit {cfg : Config} {o : Opcode} {operands : List Operand} {i : Instr}
    (hfull : fillOperands cfg o operands = operands) (hfits : operands.all (Operand.fits cfg) = true)
    (hrow : commandOf o operands = some i) : decode cfg (commandUnit o operands) = .ok i := by
  simp only [decode, commandUnit, decodeCommand, opcodeOf_opcodeByte, hfull, hfits, if_true, hrow]

theorem sendWord (w : Word) : Statement (.sendWord w) := fun _ _ => rfl

theorem bitmaskFor (ds : List Nat) : Statement (.bitmaskFor ds) := fun _ _ => rfl

theorem bitmaskForNum (n : Nat) : Statement (.bitmaskForNum n) := fun _ _ => rfl

theorem isBcd (d : Nat) : Statement (.isBcd d) := fun _ _ => rfl

theorem setBcd (m : Byte) : Statement (.setBcd m) := fun _ _ => rfl

theorem setRaw (m : Byte) : Statement (.setRaw m) := fun _ _ => rfl

theorem sendDigit (pos : Nat) (v : Byte) (dot : Bool) : Statement (.sendDigit pos v dot) := fun _ _ => rfl

theorem sendChar (pos : Nat) (g : Glyph) (dot : Bool) : Statement (.sendChar pos g dot) := fun _ _ => rfl

theorem sendNumberInt (n : Int) : Statement (.sendNumberInt n) := fun _ h =>
  decode_commandUnit rfl (by simpa [Operand.fits, Instr.spellable] using h) rfl

theorem sendNumberDec (x : BitVec 64) (p : Nat) : Statement (.sendNumberDec x p) := fun _ h =>
  decode_commandUnit rfl (by simpa [Operand.fits, Instr.spellable] using h) rfl

theorem setIntensity (v : Byte) : Statement (.setIntensity v) := fun _ _ => rfl

theorem setScanLimit (sl : Byte) : Statement (.setScanLimit sl) := fun _ _ => rfl

theorem setShutdown (b : Bool) : Statement (.setShutdown b) := fun _ _ => rfl

theorem setDisplayTest (b : Bool) : Statement (.setDisplayTest b) := fun _ _ => rfl

theorem sendNop (d : Byte) : Statement (.sendNop d) := fun _ _ => rfl

theorem clear : Statement .clear := fun _ _ => rfl

theorem fillZeros : Statement .fillZeros := fun _ _ => rfl

theorem init (din : PinId) (clk : PinId) (load : PinId) (sl : Byte) (it : Byte) : Statement (.init din clk load sl it) := fun _ _ => rfl

theorem fini : Statement .fini := fun _ _ => rfl

theorem noop (data : Byte) : Statement (.noop data) := fun _ _ => decodeWord_regWord _ data

theorem digit1 (data : Byte) : Statement (.digit1 data) := fun _ _ => decodeWord_regWord _ data

theorem digit2 (data : Byte) : Statement (.digit2 data) := fun _ _ => decodeWord_regWord _ data

theorem digit3 (data : Byte) : Statement (.digit3 data) := fun _ _ => decodeWord_regWord _ data

theorem digit4 (data : Byte) : Statement (.digit4 data) := fun _ _ => decodeWord_regWord _ data

theorem digit5 (data : Byte) : Statement (.digit5 data) := fun _ _ => decodeWord_regWord _ data

theorem digit6 (data : Byte) : Statement (.digit6 data) := fun _ _ => decodeWord_regWord _ data

theorem digit7 (data : Byte) : Statement (.digit7 data) := fun _ _ => decodeWord_regWord _ data

theorem digit8 (data : Byte) : Statement (.digit8 data) := fun _ _ => decodeWord_regWord _ data

theorem decodeMode (data : Byte) : Statement (.decodeMode data) := fun _ _ => decodeWord_regWord _ data

theorem intensity (data : Byte) : Statement (.intensity data) := fun _ _ => decodeWord_regWord _ data

theorem scanLimit (data : Byte) : Statement (.scanLimit data) := fun _ _ => decodeWord_regWord _ data

theorem shutdown (data : Byte) : Statement (.shutdown data) := fun _ _ => decodeWord_regWord _ data

theorem displayTest (data : Byte) : Statement (.displayTest data) := fun _ _ => decodeWord_regWord _ data

end Sys2Proof.Laws.DecodeEncode
end

