-- ==== Sys2Proof/Tests/Slice0.lean ====
section
/-! SUPPORT. The model's own tests. Every expected value comes from the spec: the units are written out from 30_encoding.md
R64 and R72 to R78, the effects are vectors of 95_test_vectors.md (named in each docstring). Then a witness for the
hypotheses of every statement. -/

namespace Sys2Proof.Machine.Tests

-- One theorem after another: elaborated at once, each test waits in a thread of its own for the kernel, and the threads'
-- stacks alone fill the check's memory limit.
set_option Elab.async false

/-! ### Well-formedness: a term each check refuses -/

theorem test_wf_din_is_clk : (Instr.init 3 3 2 8 255).wf Config.standard = false := by decide

theorem test_wf_din_is_load : (Instr.init 3 2 3 8 255).wf Config.standard = false := by decide

theorem test_wf_clk_is_load : (Instr.init 2 3 3 8 255).wf Config.standard = false := by decide

theorem test_wf_distinct_pins : (Instr.init 1 2 3 8 255).wf Config.standard = true := by decide

/-- R5, R64: operands wider than `INT_W` and `PREC_W`, and the widest ones. -/
theorem test_wf_wide_int : (Instr.sendNumberInt 2147483648).wf Config.standard = false := by decide

theorem test_wf_wide_negative_int : (Instr.sendNumberInt (-2147483649)).wf Config.standard = false := by decide

theorem test_wf_wide_precision : (Instr.sendNumberDec 0 256).wf Config.standard = false := by decide

theorem test_wf_widest :
    (Instr.sendNumberInt (-2147483648)).wf Config.standard = true ∧ (Instr.sendNumberDec 0 255).wf Config.standard = true := by
  decide

/-! ### Decoding: one unit per constructor, written out from the spec's tables -/

/-- The decoding of a unit under R5's defaults. -/
def decoded (u : PortUnit) : Option Instr :=
  match decode Config.standard u with
  | .ok i => some i
  | .error _ => none

theorem test_decode_send_word : decoded (.command 0x00 [.u16 0x0C01]) = some (.sendWord 0x0C01) := by decide

theorem test_decode_bitmask_for : decoded (.command 0x01 [.naturals [0, 3, 7]]) = some (.bitmaskFor [0, 3, 7]) := by decide

theorem test_decode_bitmask_for_num : decoded (.command 0x02 [.natural 527]) = some (.bitmaskForNum 527) := by decide

theorem test_decode_is_bcd : decoded (.command 0x03 [.natural 2]) = some (.isBcd 2) := by decide

theorem test_decode_set_bcd : decoded (.command 0x04 [.u8 0x03]) = some (.setBcd 0x03) := by decide

theorem test_decode_set_raw : decoded (.command 0x05 [.u8 0x81]) = some (.setRaw 0x81) := by decide

theorem test_decode_send_digit : decoded (.command 0x06 [.natural 3, .u8 0x05, .boolean true]) = some (.sendDigit 3 0x05 true) := by decide

theorem test_decode_send_digit_default : decoded (.command 0x06 [.natural 1, .u8 0x7E]) = some (.sendDigit 1 0x7E false) := by decide

theorem test_decode_send_char : decoded (.command 0x07 [.natural 8, .glyph .dash]) = some (.sendChar 8 .dash false) := by decide

theorem test_decode_send_number_int : decoded (.command 0x08 [.integer (-45)]) = some (.sendNumberInt (-45)) := by decide

theorem test_decode_send_number_dec : decoded (.command 0x09 [.binary64 0xC028800000000000, .precision 2]) = some (.sendNumberDec 0xC028800000000000 2) := by decide

theorem test_decode_set_intensity : decoded (.command 0x0A [.u8 100]) = some (.setIntensity 100) := by decide

theorem test_decode_set_scan_limit : decoded (.command 0x0B [.u8 20]) = some (.setScanLimit 20) := by decide

theorem test_decode_set_shutdown : decoded (.command 0x0C [.boolean true]) = some (.setShutdown true) := by decide

theorem test_decode_set_display_test : decoded (.command 0x0D [.boolean true]) = some (.setDisplayTest true) := by decide

theorem test_decode_send_nop : decoded (.command 0x0E [.u8 0xA5]) = some (.sendNop 0xA5) := by decide

theorem test_decode_send_nop_default : decoded (.command 0x0E []) = some (.sendNop 0x00) := by decide

theorem test_decode_clear : decoded (.command 0x0F []) = some (.clear) := by decide

theorem test_decode_fill_zeros : decoded (.command 0x10 []) = some (.fillZeros) := by decide

theorem test_decode_init : decoded (.command 0x11 [.pin 0, .pin 1, .pin 2, .u8 4, .u8 128]) = some (.init 0 1 2 4 128) := by decide

theorem test_decode_init_defaults : decoded (.command 0x11 [.pin 0, .pin 1, .pin 2]) = some (.init 0 1 2 8 255) := by decide

theorem test_decode_fini : decoded (.command 0x12 []) = some (.fini) := by decide

theorem test_decode_noop : decoded (.word 0b0000000010100101) = some (.noop 0xA5) := by decide

theorem test_decode_digit1 : decoded (.word 0b0000000100000101) = some (.digit1 0x05) := by decide

theorem test_decode_digit2 : decoded (.word 0b0000001000000100) = some (.digit2 0x04) := by decide

theorem test_decode_digit3 : decoded (.word 0b0000001110000101) = some (.digit3 0x85) := by decide

theorem test_decode_digit4 : decoded (.word 0b0000010010001011) = some (.digit4 0x8B) := by decide

theorem test_decode_digit5 : decoded (.word 0b0000010101000000) = some (.digit5 0x40) := by decide

theorem test_decode_digit6 : decoded (.word 0b0000011000001010) = some (.digit6 0x0A) := by decide

theorem test_decode_digit7 : decoded (.word 0b0000011100001111) = some (.digit7 0x0F) := by decide

theorem test_decode_digit8 : decoded (.word 0b0000100011111111) = some (.digit8 0xFF) := by decide

theorem test_decode_decode_mode : decoded (.word 0b0000100111110011) = some (.decodeMode 0xF3) := by decide

theorem test_decode_intensity : decoded (.word 0b0000101000001111) = some (.intensity 0x0F) := by decide

theorem test_decode_scan_limit : decoded (.word 0b0000101100000111) = some (.scanLimit 0x07) := by decide

theorem test_decode_shutdown : decoded (.word 0b0000110000000001) = some (.shutdown 0x01) := by decide

theorem test_decode_display_test : decoded (.word 0b0000111100000001) = some (.displayTest 0x01) := by decide

/-- R79: the addresses 0xD and 0xE and those above 0xF name no row. -/
theorem test_decode_unnamed_words :
    decoded (.word 0x0D55) = none ∧ decoded (.word 0x0E00) = none ∧ decoded (.word 0x1001) = none := by decide

/-- A command with an operand missing, of the wrong type, or too many, spells nothing. -/
theorem test_decode_malformed :
    decoded (.command 0x06 [.natural 3]) = none ∧ decoded (.command 0x04 [.boolean true]) = none ∧
      decoded (.command 0x12 [.u8 0]) = none := by decide

/-- A block configured with another `INT_W` or `PREC_W` (R5, decisions D12, D15) takes the operands of that width. -/
theorem test_decode_other_widths :
    decode { Config.standard with intW := 16 } (.command 0x08 [.integer 32767]) = .ok (.sendNumberInt 32767) ∧
      decode { Config.standard with intW := 16 } (.command 0x08 [.integer 32768]) = .error (.malformedOperands 0x08) ∧
      decode { Config.standard with intW := 64 } (.command 0x08 [.integer 2147483648]) =
        .ok (.sendNumberInt 2147483648) ∧
      decode { Config.standard with precW := 4 } (.command 0x09 [.binary64 0, .precision 16]) =
        .error (.malformedOperands 0x09) := ⟨rfl, rfl, rfl, rfl⟩

/-- No word matches two rows of the table. -/
theorem test_rows_do_not_overlap :
    wordRows.Pairwise fun a b => a.pattern &&& (a.mask &&& b.mask) ≠ b.pattern &&& (a.mask &&& b.mask) := by decide

/-- Opcodes are distinct (R64, R65). -/
theorem test_opcodes_distinct : (opcodes.map opcodeByte).Nodup := by decide

theorem test_table_rows :
    decodeTableWord 8 0x06 = some (.sendDigit 0 0x00 false) ∧ decodeTableWord 8 0x13 = none ∧
      decodeTableWord 16 0x0C01 = some (.shutdown 0x01) ∧ decodeTableWord 16 0x0D00 = none := by decide

/-! ### Assembler text (30_encoding.md R69's examples) -/

/-- Pin names of 95_test_vectors.md. -/
def pinNames : List (String × PinId) := [("DIN0", 0), ("CLK0", 1), ("LOAD0", 2)]

theorem test_assemble_send_digit :
    assembleLine pinNames "SEND_DIGIT 3, 0x05, true".toList =
      some (.command 0x06 [.natural 3, .u8 0x05, .boolean true]) := by decide

theorem test_assemble_send_char :
    assembleLine pinNames "SEND_CHAR 8, DASH".toList = some (.command 0x07 [.natural 8, .glyph .dash]) := by decide

theorem test_assemble_init :
    assembleLine pinNames "INIT DIN0, CLK0, LOAD0".toList = some (.command 0x11 [.pin 0, .pin 1, .pin 2]) := by decide

theorem test_assemble_list :
    assembleLine pinNames "BITMASK_FOR [0, 3, 7]".toList = some (.command 0x01 [.naturals [0, 3, 7]]) := by decide

/-- R67: 256 is wider than its operand. -/
theorem test_assemble_too_wide : assembleLine pinNames "SET_INTENSITY 256".toList = none := by decide

/-- The bits of −12.25 are P1's. -/
theorem test_assemble_binary64 :
    assembleLine pinNames "SEND_NUMBER_DEC -12.25, 2".toList =
      some (.command 0x09 [.binary64 0xC028800000000000, .precision 2]) := by decide +kernel

/-- A hexadecimal binary64 is its numeric value: 482 and 14, not 1e2 (log entry 26). -/
theorem test_assemble_hex_binary64 :
    parseBinary64 "0x1E2".toList = some 0x407E200000000000 ∧ parseBinary64 "-0xE".toList = some 0xC02C000000000000 ∧
      parseBinary64 "0x1.8".toList = none := by decide +kernel

/-- Leading zeros add nothing, in decimal text (log entry 26). -/
theorem test_assemble_leading_zeros :
    assembleLine pinNames "BITMASK_FOR_NUM 0527".toList = some (.command 0x02 [.natural 527]) := by decide

/-! ### One step of each instruction -/

/-- A LIVE state with the given `DM` and empty traces. -/
def live (dm : Byte) : State :=
  { State.reset with lc := .live, dm := dm, lines := linesLow, dir := allOutputs, pins := some ⟨0, 1, 2⟩ }

/-- The words an instruction sends from `live dm`, `DM` after it, and the number of its pin calls. -/
def sent (dm : Byte) (i : Instr) : Option (List Word × Byte × Nat) :=
  match exec i (live dm) with
  | .next t => some (t.wt, t.dm, t.pt.length)
  | _ => none

/-- A long stream is read off through the law of `exec`, which the kernel checks quickly. -/
theorem sent_eq {dm : Byte} {i : Instr} (hv : violation i = none) (hn : neededLifecycle i = .live)
    (hc : configCalls i = []) :
    sent dm i = some (emitted (live dm) i, dmAfter (live dm) i, 53 * (emitted (live dm) i).length) := by
  have h : exec i (live dm) = .next (doneState i (live dm)) := by
    rw [exec_accepted rfl (show (live dm).lc = neededLifecycle i from hn.symm), hv]
  simp only [sent, h, doneState, hc, ← wordsPins_length]
  rfl

/-- What a query returns from `live dm`. -/
def answered (dm : Byte) (i : Instr) : Option QueryResult :=
  match exec i (live dm) with
  | .next t => t.result
  | _ => none

/-- The FINFO an instruction leaves from `live dm`. -/
def faultOf (dm : Byte) (i : Instr) : Option FaultInfo :=
  match exec i (live dm) with
  | .next t => t.finfo
  | _ => none

/-- The refusal of an instruction. -/
def refusalOf (i : Instr) (s : State) : Option Refusal :=
  match exec i s with
  | .refused r => some r
  | _ => none

/-- The three entries of one bit. -/
def bitCalls (b : Bool) : List PinCall := [.set .clk false, .set .din b, .set .clk true]

/-- R108: the 53 entries of the word 0x0A0F, with the `DIN` values written there. -/
theorem test_send_word_pins :
    (emitWord 0x0A0F (live 0xFF)).pt =
      PinCall.set .load false ::
        (([false, false, false, false, true, false, true, false, false, false, false, false, true, true, true,
            true] : List Bool).flatMap bitCalls ++
          [PinCall.set .clk false, .set .load true, .set .load false, .set .din false]) := by decide +kernel

/-- V1.4. -/
theorem test_send_word_unnamed : sent 0xFF (.sendWord 0x0D55) = some ([0x0D55], 0xFF, 53) := by decide +kernel

/-- V2.1, V2.3. -/
theorem test_bitmask_for :
    answered 0xFF (.bitmaskFor [0, 3, 7]) = some (.mask 0x89) ∧
      answered 0xFF (.bitmaskFor [8, 9, 200]) = some (.mask 0x00) := by decide

/-- L1.11, V2.5. -/
theorem test_bitmask_for_num :
    answered 0xFF (.bitmaskForNum 527) = some (.mask 0xA4) ∧
      answered 0xFF (.bitmaskForNum 0) = some (.mask 0x01) := by decide

/-- V2.10. -/
theorem test_is_bcd : answered 0x7F (.isBcd 7) = some (.bcd false) := by decide

/-- V2.11. -/
theorem test_is_bcd_fault : faultOf 0xFF (.isBcd 8) = some ⟨.digitIndexRange, 0x03, 8⟩ := by decide

/-- V2.12. -/
theorem test_set_bcd : sent 0xF0 (.setBcd 0x03) = some ([0x09F3], 0xF3, 53) := by decide +kernel

/-- V2.17. -/
theorem test_set_raw : sent 0xFF (.setRaw 0x81) = some ([0x097E], 0x7E, 53) := by decide +kernel

/-- V3.2. -/
theorem test_send_digit_bcd : sent 0xFB (.sendDigit 3 5 true) = some ([0x09FF, 0x0385], 0xFF, 106) := by decide +kernel

/-- V3.4. -/
theorem test_send_digit_raw : sent 0xFF (.sendDigit 8 0xFF true) = some ([0x097F, 0x08FF], 0x7F, 106) := by decide +kernel

/-- V3.12. -/
theorem test_send_char : sent 0xFF (.sendChar 4 .e true) = some ([0x048B], 0xFF, 53) := by decide +kernel

/-- V3.16. -/
theorem test_send_char_fault : faultOf 0xFF (.sendChar 9 .dash false) = some ⟨.positionRange, 0x07, 9⟩ := by decide

/-- V3.19. -/
theorem test_clear : sent 0x00 (.clear) = some ([0x0901, 0x010F, 0x0903, 0x020F, 0x0907, 0x030F, 0x090F, 0x040F, 0x091F, 0x050F, 0x093F, 0x060F, 0x097F, 0x070F, 0x09FF, 0x080F], 0xFF, 848) := by
  rw [sent_eq rfl rfl rfl]; decide +kernel

/-- V3.21. -/
theorem test_fill_zeros : sent 0x7F (.fillZeros) = some ([0x0100, 0x0200, 0x0300, 0x0400, 0x0500, 0x0600, 0x0700, 0x09FF, 0x0800], 0xFF, 477) := by
  rw [sent_eq rfl rfl rfl]; decide +kernel

/-- V4.7. -/
theorem test_send_number_int_dash : sent 0xFF (.sendNumberInt (-1234567)) = some ([0x0107, 0x0206, 0x0305, 0x0404, 0x0503, 0x0602, 0x0701, 0x080A], 0xFF, 424) := by
  rw [sent_eq rfl rfl rfl]; decide +kernel

/-- V4.12. -/
theorem test_send_number_int_least : sent 0xFF (.sendNumberInt (-2147483648)) = some ([0x0108, 0x0204, 0x0306, 0x0403, 0x0508, 0x0604, 0x0707, 0x0804], 0xFF, 424) := by
  rw [sent_eq rfl rfl rfl]; decide +kernel

/-- V4.22. -/
theorem test_send_number_dec_12_25 : sent 0xFF (.sendNumberDec 0xC028800000000000 2) = some ([0x0105, 0x0202, 0x0382, 0x0401, 0x050A], 0xFF, 265) := by
  rw [sent_eq rfl rfl rfl]; decide +kernel

/-- V4.25, the bits of 3.05 from general knowledge. -/
theorem test_send_number_dec_3_05 : sent 0xFF (.sendNumberDec 0x4008666666666666 2) = some ([0x0104, 0x0383], 0xFF, 106) := by decide +kernel

/-- V5.13. -/
theorem test_set_intensity : sent 0xFF (.setIntensity 100) = some ([0x0A06], 0xFF, 53) := by decide +kernel

/-- V5.6. -/
theorem test_set_scan_limit : sent 0xFF (.setScanLimit 20) = some ([0x0B07], 0xFF, 53) := by decide +kernel

/-- V5.6, LITERAL. -/
theorem test_scan_limit_literal : scanData .literal 20 = 0x13 ∧ scanData .literal 0 = 0xFF := by decide

/-- V5.16. -/
theorem test_set_shutdown : sent 0xFF (.setShutdown true) = some ([0x0C00], 0xFF, 53) := by decide +kernel

/-- V5.18. -/
theorem test_set_display_test : sent 0xFF (.setDisplayTest true) = some ([0x0F01], 0xFF, 53) := by decide +kernel

/-- V5.21. -/
theorem test_send_nop : sent 0xFF (.sendNop 0xAB) = some ([0x00AB], 0xFF, 53) := by decide +kernel

/-- V6.5. -/
theorem test_fini : sent 0xFE (.fini) = some ([0x09FF, 0x010F, 0x020F, 0x030F, 0x040F, 0x050F, 0x060F, 0x070F, 0x080F, 0x0C00], 0xFF, 530) := by
  rw [sent_eq rfl rfl rfl]; decide +kernel

/-- V6.1. -/
theorem test_init :
    (match exec (.init 0 1 2 8 255) State.reset with
      | .next t => some (t.wt, t.pt.length, t.lc, t.ci)
      | _ => none) =
      some ([0x0B07, 0x0A0F, 0x09FF, 0x010F, 0x020F, 0x030F, 0x040F, 0x050F, 0x060F, 0x070F, 0x080F, 0x0C01], 642,
        .live, 1) := by
  rw [exec_accepted rfl (show State.reset.lc = neededLifecycle (.init 0 1 2 8 255) from rfl)]
  decide +kernel

/-- V6.1's first ten pin calls. -/
theorem test_init_pins :
    (match exec (.init 0 1 2 8 255) State.reset with
      | .next t => t.pt.take 10
      | _ => []) =
      [.out .din, .set .din false, .out .clk, .set .clk false, .out .load, .set .load false, .set .load false,
        .set .clk false, .set .din false, .set .clk true] := by decide +kernel

/-- R72 to R78. -/
theorem test_word_noop : sent 0x0F (.noop 0xA5) = some ([0x00A5], 0x0F, 53) := by decide +kernel

/-- R72 to R78. -/
theorem test_word_digit1 : sent 0x0F (.digit1 0xA5) = some ([0x01A5], 0x0F, 53) := by decide +kernel

/-- R72 to R78. -/
theorem test_word_digit2 : sent 0x0F (.digit2 0xA5) = some ([0x02A5], 0x0F, 53) := by decide +kernel

/-- R72 to R78. -/
theorem test_word_digit3 : sent 0x0F (.digit3 0xA5) = some ([0x03A5], 0x0F, 53) := by decide +kernel

/-- R72 to R78. -/
theorem test_word_digit4 : sent 0x0F (.digit4 0xA5) = some ([0x04A5], 0x0F, 53) := by decide +kernel

/-- R72 to R78. -/
theorem test_word_digit5 : sent 0x0F (.digit5 0xA5) = some ([0x05A5], 0x0F, 53) := by decide +kernel

/-- R72 to R78. -/
theorem test_word_digit6 : sent 0x0F (.digit6 0xA5) = some ([0x06A5], 0x0F, 53) := by decide +kernel

/-- R72 to R78. -/
theorem test_word_digit7 : sent 0x0F (.digit7 0xA5) = some ([0x07A5], 0x0F, 53) := by decide +kernel

/-- R72 to R78. -/
theorem test_word_digit8 : sent 0x0F (.digit8 0xA5) = some ([0x08A5], 0x0F, 53) := by decide +kernel

/-- R72 to R78. -/
theorem test_word_decodeMode : sent 0x0F (.decodeMode 0xA5) = some ([0x09A5], 0x0F, 53) := by decide +kernel

/-- R72 to R78. -/
theorem test_word_intensity : sent 0x0F (.intensity 0xA5) = some ([0x0AA5], 0x0F, 53) := by decide +kernel

/-- R72 to R78. -/
theorem test_word_scanLimit : sent 0x0F (.scanLimit 0xA5) = some ([0x0BA5], 0x0F, 53) := by decide +kernel

/-- R72 to R78. -/
theorem test_word_shutdown : sent 0x0F (.shutdown 0xA5) = some ([0x0CA5], 0x0F, 53) := by decide +kernel

/-- R72 to R78. -/
theorem test_word_displayTest : sent 0x0F (.displayTest 0xA5) = some ([0x0FA5], 0x0F, 53) := by decide +kernel

/-- V7.1, V7.3, V7.4: the lifecycle refusals. -/
theorem test_lifecycle_refusals :
    refusalOf (.sendWord 0x0C01) State.reset = some (.lifecycle .uninit) ∧
      refusalOf (.init 0 1 2 8 255) (live 0xFF) = some (.lifecycle .live) ∧
      refusalOf (.setIntensity 0) { live 0xFF with lc := .destroyed } = some (.lifecycle .destroyed) := by decide

/-- V7.10: a faulted block refuses, without a second fault. -/
theorem test_faulted_refusal : refusalOf (.sendDigit 0 0 false) { live 0xFF with fault := true } = some .faulted := by decide

/-- V7.7: a reserved opcode is refused first. -/
theorem test_reserved_opcode :
    (match step { State.reset with prog := [.command 0xFF []] } with
      | .refused r => some r
      | _ => none) = some (.reservedOpcode 0xFF) := by decide

/-- P4: after SEND_WORD to 0x9 the chip shows a raw segment pattern. -/
theorem test_broken_coherence_shows_segments :
    shownAt [0x09FF, 0x0900, 0x0105] 1 = some (.segments 0x05) := by decide

/-- `step` runs the placed row from reset: INIT as it is, another row in a block INIT has started. -/
theorem test_with_fetch_word :
    (match step (State.reset.withFetchWord 16 0x0C01) with
      | .next t => t.wt
      | _ => []) = [0x0C01] := by decide

/-! ### Witnesses -/

/-- A faulted block. -/
def faulted : State := { live 0xFF with fault := true, finfo := some ⟨.positionRange, 0x06, 9⟩ }

/-- A block whose chip holds `DM`. -/
def coherentState : State := { live 0xFF with wt := [0x09FF] }

/-- Reset, with INIT as the host's first command. -/
def resetInit : State := { State.reset with prog := [.command 0x11 [.pin 0, .pin 1, .pin 2]] }

/-- A LIVE block, with a command that faults next. -/
def liveFaulting : State := { live 0xFF with prog := [.command 0x06 [.natural 9, .u8 1]] }

/-- A LIVE block, with a command that completes next. -/
def liveClear : State := { live 0xFE with prog := [.command 0x0F []] }

theorem witness_SendWordSendsAnyWordAsGiven :
    (live 0xFF).ready ∧ faulted.fault = true ∧ State.reset.fault = false ∧ State.reset.lc ≠ .live := by decide

theorem witness_SetIntensitySendsTheBucket :
    (live 0xFF).ready ∧ faulted.fault = true ∧ State.reset.fault = false ∧ State.reset.lc ≠ .live := by decide

theorem witness_SetShutdownIsInverted :
    (live 0xFF).ready ∧ faulted.fault = true ∧ State.reset.fault = false ∧ State.reset.lc ≠ .live := by decide

theorem witness_BitmaskForSetsTheListedBits :
    (live 0xFF).ready ∧ (0 : Nat) < 8 ∧ (7 : Nat) < 8 := by decide

theorem witness_BitmaskForNumSetsTheDigitsBits :
    (live 0xFF).ready ∧ (0 : Nat) < 8 ∧ (7 : Nat) < 8 := by decide

theorem witness_IsBcdReadsOneBitOrFaults :
    (live 0xFF).ready ∧ (7 : Nat) ≤ 7 ∧ (7 : Nat) < 8 := by decide

theorem witness_SetBcdAndSetRawWriteAndSendTheRegister :
    (live 0x0F).ready := by decide

theorem witness_SendNumberIntSendsTheDecimalDigits :
    (live 0x0F).ready := by decide

theorem witness_DisplayTestAndNopSendTheirWords :
    (live 0x0F).ready := by decide

theorem witness_FiniClearsAndShutsDown :
    (live 0x0F).ready := by decide

theorem witness_BareRegisterWordsAreSentAsGiven :
    (live 0x0F).ready := by decide

theorem witness_SendWordCanBreakCoherence :
    (live 0x0F).ready := by decide

theorem witness_SetThenIsBcdRoundTrip :
    (live 0x0F).ready ∧ (7 : Nat) < 8 := by decide

theorem witness_SendDigitOfABcdValue :
    (live 0x0F).ready ∧ 1 ≤ 8 ∧ 8 ≤ 8 ∧ (15 : Byte).toNat ≤ 15 := by decide

theorem witness_SendDigitOfARawValue :
    (live 0x0F).ready ∧ 1 ≤ 1 ∧ 1 ≤ 8 ∧ 15 < (16 : Byte).toNat := by decide

theorem witness_IllegalPositionFaultsBeforeAnyEffect :
    (live 0x0F).ready ∧ (0 = 0 ∨ 8 < 0) ∧ (9 = 0 ∨ 8 < 9) := by decide

theorem witness_SendCharIsSendDigitOfTheGlyphCode :
    (live 0xFF).ready ∧ 1 ≤ 1 ∧ 8 ≤ 8 ∧ 8 < 9 ∧ faulted.fault = true ∧ State.reset.fault = false ∧ State.reset.lc ≠ .live := by decide

theorem witness_ClearAndFillZerosWriteEveryPosition :
    (live 0xFF).ready ∧ (live 0xFF).dm = 0xFF := by decide

theorem witness_SendNumberDecSendsFractionThenInteger :
    (live 0xFF).ready ∧ ((0x7FEFFFFFFFFFFFFF : BitVec 64).extractLsb' 52 11).toNat ≠ 2047 := by decide

theorem witness_NonfiniteOperandFaults :
    (live 0xFF).ready ∧ ((0x7FF0000000000000 : BitVec 64).extractLsb' 52 11).toNat = 2047 := by decide

theorem witness_SplitHasExactSignAndIntegerPart :
    ((0x7FEFFFFFFFFFFFFF : BitVec 64).extractLsb' 52 11).toNat ≠ 2047 ∧
      ((0x0000000000000001 : BitVec 64).extractLsb' 52 11).toNat = 0 := by decide

theorem witness_SplitFractionFollowsTheConfiguredSplit :
    Config.standard.split = .split64 ∧ (22 : Nat) ≤ 22 ∧ 22 < (23 : Nat) ∧
      { Config.standard with split := .substituted }.split = .substituted := by decide

theorem witness_RoundingIsToNearestEven :
    rne64 (2 ^ 53 - 1) = 2 ^ 53 - 1 ∧ rne64 (2 ^ 53 + 1) = 2 ^ 53 ∧ rne64 (2 ^ 53 + 3) = 2 ^ 53 + 4 := by decide +kernel

theorem witness_SplitFractionHasAtMostPDigits :
    Config.standard.split = .split64 ∧ (22 : Nat) ≤ 22 := by decide

theorem witness_DecimalPointStandsOnceAtPPlusOne :
    (live 0x0F).ready ∧ ((0x4004000000000000 : BitVec 64).extractLsb' 52 11).toNat ≠ 2047 ∧ 7 ≤ 7 ∧ ¬8 ≤ 7 := by decide

theorem witness_SetScanLimitInBothModes :
    (live 0xFF).ready ∧ (live 0xFF).cfg.scanLimitMode = .clamped ∧
      { live 0xFF with cfg := { Config.standard with scanLimitMode := .literal } }.ready ∧
      { live 0xFF with cfg := { Config.standard with scanLimitMode := .literal } }.cfg.scanLimitMode = .literal ∧
      1 ≤ (1 : Byte).toNat ∧ (8 : Byte).toNat ≤ 8 := by decide

theorem witness_InitRunsItsFixedSequence :
    State.reset.lc = .uninit ∧ State.reset.fault = false := by decide

theorem witness_FaultRefusesEveryInstruction :
    faulted.fault = true := by decide

theorem witness_LifecycleRefusesTheRest :
    State.reset.fault = false ∧ State.reset.lc ≠ .live ∧ (live 0xFF).fault = false ∧ (live 0xFF).lc ≠ .uninit := by decide

theorem witness_ReservedOpcodesAreRefusedFirst :
    ({ State.reset with prog := [.command 0x13 []] } : State).prog[0]? = some (.command 0x13 []) ∧ 0x13 ≤ (0x13 : Byte).toNat := by decide

theorem witness_OnlyContractViolationsFault :
    (∃ t, exec (.isBcd 8) (live 0xFF) = .next t ∧ t.fault = true) ∧
      (∃ t, exec (.sendDigit 0 1 false) (live 0xFF) = .next t ∧ t.fault = true) ∧
      (∃ t, exec (.sendChar 9 .dash false) (live 0xFF) = .next t ∧ t.fault = true) ∧
      (∃ t, exec (.sendNumberDec 0xFFF0000000000000 0) (live 0xFF) = .next t ∧ t.fault = true) := 
  ⟨⟨_, rfl, rfl⟩, ⟨_, rfl, rfl⟩, ⟨_, rfl, rfl⟩, ⟨_, rfl, rfl⟩⟩

theorem witness_BlockStopsAfterAFault :
    ∃ t, step liveFaulting = .next t ∧ t.fault = true := ⟨_, rfl, rfl⟩

theorem witness_LineReadsFaultOnlyBeforeInit :
    lineOf State.reset.lines .clk = .unspecified ∧ lineOf (live 0xFF).lines .clk = .low ∧
      State.reset.lifecycleOk ∧ State.reset.lc = .uninit ∧ (live 0xFF).lifecycleOk ∧ (live 0xFF).lc ≠ .uninit := 
  ⟨rfl, rfl, ⟨rfl, rfl, rfl, rfl, rfl, rfl, rfl, rfl⟩, rfl, ⟨rfl, rfl, rfl⟩, by decide⟩

theorem witness_DecodeGivesBackEveryEncoding :
    (Instr.sendNumberInt 2147483647).spellable Config.standard = true ∧
      (Instr.sendNumberInt 2147483648).spellable Config.standard = false ∧
      (Instr.sendNumberDec 0 255).spellable Config.standard = true ∧
      (Instr.sendNumberDec 0 256).spellable Config.standard = false := by decide

theorem witness_StepRunsTheDecodedInstruction :
    liveClear.prog[liveClear.ci]? = some (.command 0x0F []) ∧ decode liveClear.cfg (.command 0x0F []) = .ok .clear := ⟨rfl, rfl⟩

theorem witness_IndexAdvancesByOneOrFaults :
    (∃ t, step liveClear = .next t) ∧ ∃ t, step liveFaulting = .next t := ⟨⟨_, rfl⟩, ⟨_, rfl⟩⟩

theorem witness_LifecycleMovesOnlyByInitAndFini :
    (∃ t, exec (.init 0 1 2 8 255) State.reset = .next t ∧ t.lc ≠ State.reset.lc) ∧
      ∃ t, exec .fini (live 0xFF) = .next t ∧ t.lc ≠ (live 0xFF).lc := 
  ⟨⟨_, rfl, by decide⟩, ⟨_, rfl, by decide⟩⟩

theorem witness_DecodeModeHasOnlyItsWriters :
    (∃ t, exec (.setRaw 0x01) (live 0xFF) = .next t ∧ t.dm ≠ (live 0xFF).dm) ∧
      ∃ t, exec (.sendDigit 1 5 false) (live 0x00) = .next t ∧ t.dm ≠ (live 0x00).dm := 
  ⟨⟨_, rfl, by decide⟩, ⟨_, rfl, by decide⟩⟩

theorem witness_ParametersNeverChange :
    (∃ t, step liveClear = .next t) ∧
      ∃ t, exec (.init 0 1 2 8 255) State.reset = .next t ∧ (t.pins ≠ State.reset.pins ∨ t.dir ≠ State.reset.dir) := 
  ⟨⟨_, rfl⟩, ⟨_, rfl, .inl (by decide +kernel)⟩⟩

theorem witness_OnlySendWordFormsUnnamedAddresses :
    ∃ t, exec (.setRaw 0x01) (live 0x0F) = .next t ∧ (∀ w, Instr.setRaw 0x01 ≠ .sendWord w) ∧
      0x090E ∈ t.wt.drop (live 0x0F).wt.length := 
  ⟨_, rfl, fun _ h => (nomatch h), by decide +kernel⟩

theorem witness_EveryCommandDoesBoundedWork :
    ∃ t, exec (.setRaw 0x01) (live 0x00) = .next t ∧ t.fault = false := ⟨_, rfl, rfl⟩

theorem witness_ReplayedTraceIsTheWordTrace :
    resetInit.traceOk ∧ ∃ t, step resetInit = .next t := ⟨fun _ _ => ⟨rfl, rfl⟩, ⟨_, rfl⟩⟩

theorem witness_LinesAreLowBetweenCommands :
    resetInit.lifecycleOk ∧ (∃ t, step resetInit = .next t) ∧ liveClear.lifecycleOk ∧ ∃ t, step liveClear = .next t := 
  ⟨⟨rfl, rfl, rfl, rfl, rfl, rfl, rfl, rfl⟩, ⟨_, rfl⟩, ⟨rfl, rfl, rfl⟩, ⟨_, rfl⟩⟩

theorem witness_PinOrderHoldsOverTheWholeTrace :
    resetInit.lifecycleOk ∧ pinOrderOk State.reset.lines resetInit.pt = true ∧ ∃ t, step resetInit = .next t := 
  ⟨⟨rfl, rfl, rfl, rfl, rfl, rfl, rfl, rfl⟩, rfl, ⟨_, rfl⟩⟩

theorem witness_FaultRecordStaysTrue :
    liveFaulting.faultOk ∧ ∃ t, step liveFaulting = .next t := ⟨rfl, ⟨_, rfl⟩⟩

theorem witness_DecodeModeCoherenceIsKept :
    (∃ t, exec (.init 0 1 2 8 255) State.reset = .next t) ∧ coherentState.coherent ∧
      bypassesDecodeMode (.setRaw 0x01) = false ∧ ∃ t, exec (.setRaw 0x01) coherentState = .next t := 
  ⟨⟨_, rfl⟩, rfl, rfl, ⟨_, rfl⟩⟩

theorem witness_NumberLeavesHigherDigitsAlone :
    (∃ t, exec (.sendNumberInt 5) (live 0xFF) = .next t) ∧ (1, 0x05#8) ∈ intEntries 5 ∧ (intEntries 5).length < 2 ∧
      (intEntries 5).length < 8 := ⟨⟨_, rfl⟩, by decide +kernel, by decide +kernel, by decide +kernel⟩

theorem witness_SendDigitShowsTheValue :
    coherentState.coherent ∧ (∃ t, exec (.sendDigit 8 15 true) coherentState = .next t ∧ t.fault = false) ∧
      ∃ t, exec (.sendDigit 1 16 true) coherentState = .next t ∧ t.fault = false := 
  ⟨rfl, ⟨_, rfl, rfl⟩, ⟨_, rfl, rfl⟩⟩

theorem witness_ExpansionsHaveTheSameEffect :
    (live 0x00).ready ∧ expansion .clear = some ((List.range 8).map fun d => .sendChar (d + 1) .blank false) ∧
      (expansion .fillZeros).isSome = true ∧ (expansion (.sendChar 9 .e true)).isSome = true ∧
      (expansion (.sendNop 0)).isSome = true ∧ (expansion (.setShutdown true)).isSome = true ∧
      (expansion (.setDisplayTest true)).isSome = true ∧ (expansion (.setIntensity 255)).isSome = true := 
  ⟨by decide, rfl, rfl, rfl, rfl, rfl, rfl, rfl⟩

theorem witness_WordsDecodeToTheirOwnRow :
    decodeWord 0x0FFF = .ok (.displayTest 0xFF) ∧ decodeWord 0x0C00 = .ok (.shutdown 0x00) := ⟨rfl, rfl⟩

theorem witness_CommandsDecodeByTheirOpcode :
    decodeCommand Config.standard 0x12 [] = .ok .fini ∧
      decodeCommand Config.standard 0x11 [.pin 0, .pin 1, .pin 2] = .ok (.init 0 1 2 8 255) := ⟨rfl, rfl⟩

end Sys2Proof.Machine.Tests
end

/-! SUPPORT. The family of 10_state.md: what every step keeps of the state, the fault record, the lifecycle, and the
replayed pin trace. Everything here is derived from the cases of a next state (`exec_next`). -/

namespace Sys2Proof.Machine

/-! ### The two next states, field by field -/

section NextStates

variable (i : Instr) (s : State)

/-- A ContractViolation's next state is R220's update, so the laws of `setFault` speak of it. -/
@[simp] theorem faultedState_eq_setFault (f : FaultInfo) : faultedState f s = setFault f s := rfl

@[simp] theorem doneState_lc : (doneState i s).lc = leftLifecycle i := rfl
@[simp] theorem doneState_dm : (doneState i s).dm = dmAfter s i := rfl
@[simp] theorem doneState_lines : (doneState i s).lines = if isQuery i then s.lines else linesLow := rfl
@[simp] theorem doneState_dir : (doneState i s).dir = dirAfter s i := rfl
@[simp] theorem doneState_fault : (doneState i s).fault = s.fault := rfl
@[simp] theorem doneState_finfo : (doneState i s).finfo = s.finfo := rfl
@[simp] theorem doneState_wt : (doneState i s).wt = s.wt ++ emitted s i := rfl
@[simp] theorem doneState_pt : (doneState i s).pt = s.pt ++ configCalls i ++ wordsPins (emitted s i) := rfl
@[simp] theorem doneState_ci : (doneState i s).ci = s.ci + 1 := rfl
@[simp] theorem doneState_pins : (doneState i s).pins = pinsAfter s i := rfl
@[simp] theorem doneState_cfg : (doneState i s).cfg = s.cfg := rfl
@[simp] theorem doneState_prog : (doneState i s).prog = s.prog := rfl
@[simp] theorem doneState_result : (doneState i s).result = returned s i := rfl

end NextStates

/-- The cases of a next state of `step`: the instruction at `ci` was accepted, and it violated or completed. -/
theorem step_next_cases {s t : State} (h : step s = .next t) :
    ∃ i, s.fault = false ∧ s.lc = neededLifecycle i ∧
      ((∃ f, violation i = some f ∧ t = setFault f s) ∨ t = doneState i s) := by
  obtain ⟨_, i, -, -, hexec⟩ := step_next h
  obtain ⟨hf, hl, hcases⟩ := exec_next hexec
  exact ⟨i, hf, hl, hcases.imp_right And.right⟩

/-- The other direction of `step_next`: a unit at `ci` that decodes to `i` makes the step `exec i`. -/
theorem step_eq_exec {s : State} {u : PortUnit} {i : Instr} (hu : fetchUnit s = some u) (hi : decode s.cfg u = .ok i) :
    step s = exec i s := by
  simp only [step, hu, hi]

/-- No meaning stops the machine with a fault: it refuses, or it answers a next state. -/
theorem exec_ne_fault (i : Instr) (s : State) (r : Fault) : exec i s ≠ .fault r := by
  cases hf : s.fault with
  | true => simp [exec_faulted i hf]
  | false =>
    by_cases hl : s.lc = neededLifecycle i
    · simp [exec_accepted hf hl]
    · simp [exec_lifecycle hf hl]

theorem step_ne_fault (s : State) (r : Fault) : step s ≠ .fault r := by
  intro h
  unfold step at h
  split at h
  · cases h
  · split at h
    · cases h
    · exact exec_ne_fault _ _ _ h

/-! ### What an instruction writes -/

/-- The queries are the only instructions that emit no word. -/
theorem emitted_eq_nil_iff (i : Instr) (s : State) : emitted s i = [] ↔ isQuery i = true := by
  have hstream : ∀ {es : List DigitEntry}, 1 ≤ es.length → bcdWords s.dm es ≠ [] := fun {es} hes hnil => by
    have hlen := (bcdWords_length s.dm es).1
    simp only [hnil, List.length_nil] at hlen
    omega
  cases i with
  | sendDigit pos v dot =>
    cases hv : bcdCapable v
    · simp [emitted, isQuery, hv, rawWords]
    · simpa [emitted, isQuery, hv] using hstream (es := [(pos, digitData v dot)]) (by simp)
  | sendChar pos g dot => simpa [emitted, isQuery] using hstream (by simp)
  | sendNumberInt n => simpa [emitted, isQuery] using hstream (intEntries_length n).1
  | sendNumberDec x p => simpa [emitted, isQuery] using hstream (decEntries_length _ _ _).1
  | clear | fillZeros => simpa [emitted, isQuery] using hstream (by simp [sameEverywhere])
  | _ => simp [emitted, isQuery]

/-- Only INIT and FINI leave another lifecycle state than they need (R20). -/
theorem init_or_fini_of_leftLifecycle_ne {i : Instr} (h : leftLifecycle i ≠ neededLifecycle i) :
    (∃ din clk load sl it, i = .init din clk load sl it) ∨ i = .fini := by
  cases i with
  | init din clk load sl it => exact .inl ⟨din, clk, load, sl, it, rfl⟩
  | fini => exact .inr rfl
  | _ => exact absurd rfl h

/-- Only INIT configures pins and is given identifiers (R21, R24). -/
theorem init_of_pins_or_dir_ne {i : Instr} {s : State} (h : pinsAfter s i ≠ s.pins ∨ dirAfter s i ≠ s.dir) :
    ∃ din clk load sl it, i = .init din clk load sl it := by
  cases i with
  | init din clk load sl it => exact ⟨din, clk, load, sl, it, rfl⟩
  | _ => exact h.elim (absurd rfl) (absurd rfl)

/-- A completed command never leaves the block UNINIT (R20). -/
theorem leftLifecycle_ne_uninit (i : Instr) : leftLifecycle i ≠ .uninit := by
  cases i <;> simp [leftLifecycle]

/-! ### The replayed trace (R45, R47) -/

/-- A completed command's pin calls latch exactly its words, and leave the lines as the command does. -/
theorem receive_instruction (unknown : Bool) (i : Instr) (s : State) (r : Receiver) :
    (receiveAll unknown (configCalls i ++ wordsPins (emitted s i)) r).rwt = r.rwt ++ emitted s i ∧
      (receiveAll unknown (configCalls i ++ wordsPins (emitted s i)) r).lines =
        if isQuery i then r.lines else linesLow := by
  obtain ⟨hwords, hlines⟩ := receive_words unknown (emitted s i) (receiveAll unknown (configCalls i) r)
  rw [receiveAll_append, hwords, hlines]
  simp only [emitted_eq_nil_iff]
  cases i with
  | init din clk load sl it => exact ⟨by rw [(receive_config unknown din clk load sl it r).2], rfl⟩
  | _ => exact ⟨rfl, rfl⟩

/-- A completed command keeps the replayed trace equal to the word trace. -/
theorem traceOk_doneState (i : Instr) {s : State} (hs : s.traceOk) : (doneState i s).traceOk := by
  intro unknown sr0
  obtain ⟨hlines, hwords⟩ := hs unknown sr0
  obtain ⟨hwords', hlines'⟩ := receive_instruction unknown i s (receiverOf unknown sr0 s)
  have hreplay : receiverOf unknown sr0 (doneState i s) =
      receiveAll unknown (configCalls i ++ wordsPins (emitted s i)) (receiverOf unknown sr0 s) := by
    simp only [receiverOf, doneState_pt, List.append_assoc, receiveAll_append]
  rw [hreplay, hlines', hwords', hlines, hwords]
  exact ⟨rfl, rfl⟩

/-- Settles O46: a completed command's pin calls latch exactly the words it records, and a violation makes none. -/
theorem replayedTraceIsTheWordTrace : Obligations.ReplayedTraceIsTheWordTrace := by
  unfold Obligations.ReplayedTraceIsTheWordTrace
  intro s t hs h
  obtain ⟨i, -, -, ⟨f, -, rfl⟩ | rfl⟩ := step_next_cases h
  · exact hs
  · exact traceOk_doneState i hs

/-! ### Faults and the index -/

/-- Settles O36: a violation keeps `ci`, the program and the configuration, so the same unit is handed over again, and
`FAULT = 1` refuses it. -/
theorem blockStopsAfterAFault : Obligations.BlockStopsAfterAFault := by
  unfold Obligations.BlockStopsAfterAFault
  intro s t h ht
  obtain ⟨u, i, hu, hi, hexec⟩ := step_next h
  obtain ⟨hf, -, ⟨f, -, rfl⟩ | ⟨-, rfl⟩⟩ := exec_next hexec
  · rw [step_eq_exec (s := faultedState f s) hu hi, exec_faulted i ht]
  · rw [doneState_fault, hf] at ht
    cases ht

/-- Settles O40: completion adds 1 to `ci` and keeps `FAULT` and `FINFO`, a violation keeps `ci`. -/
theorem indexAdvancesByOneOrFaults : Obligations.IndexAdvancesByOneOrFaults := by
  unfold Obligations.IndexAdvancesByOneOrFaults
  intro s t h
  obtain ⟨i, hf, -, ⟨f, -, rfl⟩ | rfl⟩ := step_next_cases h
  · exact .inr ⟨setFault_ci s f, setFault_fault s f⟩
  · exact .inl ⟨doneState_ci i s, hf, doneState_finfo i s⟩

/-- Settles O49: a violation records the operand of the instruction that broke its contract, completion keeps
the record. -/
theorem faultRecordStaysTrue : Obligations.FaultRecordStaysTrue := by
  unfold Obligations.FaultRecordStaysTrue
  intro s t hs h
  obtain ⟨i, -, -, ⟨f, hf, rfl⟩ | rfl⟩ := step_next_cases h
  · exact ⟨setFault_fault s f, i, hf⟩
  · exact hs

/-! ### The lifecycle and the lines -/

/-- Settles O41: a completed instruction leaves the lifecycle state it needs, except INIT and FINI. -/
theorem lifecycleMovesOnlyByInitAndFini : Obligations.LifecycleMovesOnlyByInitAndFini := by
  unfold Obligations.LifecycleMovesOnlyByInitAndFini
  intro i s t h hne
  obtain ⟨-, hl, ⟨f, -, rfl⟩ | ⟨-, rfl⟩⟩ := exec_next h
  · exact absurd rfl hne
  · rw [doneState_lc, hl] at hne
    obtain ⟨din, clk, load, sl, it, rfl⟩ | rfl := init_or_fini_of_leftLifecycle_ne hne
    · exact .inl ⟨hl, rfl, din, clk, load, sl, it, rfl⟩
    · exact .inr ⟨hl, rfl, rfl⟩

/-- Past UNINIT the invariant is about the lines, the directions and the identifiers alone (R24). -/
theorem lifecycleOk_iff_of_ne_uninit {s : State} (h : s.lc ≠ .uninit) :
    s.lifecycleOk ↔ s.lines = linesLow ∧ s.dir = allOutputs ∧ s.pins.isSome = true := by
  unfold State.lifecycleOk
  split
  · contradiction
  · rfl
  · rfl

/-- A completed command leaves the lines low, the pins outputs and the identifiers held (R24): INIT makes it so, every
other instruction runs in a LIVE block and keeps it. -/
theorem lifecycleOk_doneState {i : Instr} {s : State} (hs : s.lifecycleOk) (hl : s.lc = neededLifecycle i) :
    (doneState i s).lifecycleOk := by
  rw [lifecycleOk_iff_of_ne_uninit (leftLifecycle_ne_uninit i)]
  cases i with
  | init din clk load sl it => exact ⟨rfl, rfl, rfl⟩
  | _ =>
    obtain ⟨hlines, hdir, hpins⟩ := (lifecycleOk_iff_of_ne_uninit (by simp [hl, neededLifecycle])).mp hs
    exact ⟨by simp [hlines], hdir, hpins⟩

/-- Settles O47: a violation moves nothing the invariant speaks of in the LIVE block it needs, and
`lifecycleOk_doneState` is the case of completion. -/
theorem linesAreLowBetweenCommands : Obligations.LinesAreLowBetweenCommands := by
  unfold Obligations.LinesAreLowBetweenCommands
  intro s t hs h
  obtain ⟨i, -, hl, ⟨f, hv, rfl⟩ | rfl⟩ := step_next_cases h
  · have hlive : s.lc ≠ .uninit := by simp [hl, neededLifecycle_of_violation hv]
    rw [lifecycleOk_iff_of_ne_uninit hlive] at hs
    exact (lifecycleOk_iff_of_ne_uninit (s := setFault f s) hlive).mpr hs
  · exact lifecycleOk_doneState hs hl

/-- A line read faults exactly while the line has no level (R24). -/
theorem readLine_eq_error_iff (s : State) (p : Line) :
    readLine s p = .error (.lineUnspecified p) ↔ lineOf s.lines p = .unspecified := by
  unfold readLine
  cases lineOf s.lines p <;> simp

theorem lineOf_reset_lines (p : Line) : lineOf State.reset.lines p = .unspecified := by cases p <;> rfl

theorem lineOf_linesLow (p : Line) : lineOf linesLow p = .low := by cases p <;> rfl

/-- Before INIT the lines are those of reset (R33). -/
theorem lines_eq_reset_of_lifecycleOk {s : State} (hs : s.lifecycleOk) (hl : s.lc = .uninit) :
    s.lines = State.reset.lines := by
  rw [State.lifecycleOk, hl] at hs
  obtain ⟨-, hlines, -⟩ := hs
  exact hlines

/-- Settles O37: a read answers by the line's level alone, and the lifecycle invariant gives the levels. -/
theorem lineReadsFaultOnlyBeforeInit : Obligations.LineReadsFaultOnlyBeforeInit := by
  unfold Obligations.LineReadsFaultOnlyBeforeInit
  refine ⟨readLine_eq_error_iff, fun s p hs hl => ?_, fun s p hs hl => ?_, step_ne_fault⟩
  · rw [readLine_eq_error_iff, lines_eq_reset_of_lifecycleOk hs hl, lineOf_reset_lines]
  · obtain ⟨hlines, -, -⟩ := (lifecycleOk_iff_of_ne_uninit hl).mp hs
    simp only [readLine, hlines, lineOf_linesLow]

/-! ### Registers and parameters -/

/-- Settles O42: an instruction off the list keeps `DM` when it completes, and a violation keeps it always. -/
theorem decodeModeHasOnlyItsWriters : Obligations.DecodeModeHasOnlyItsWriters := by
  unfold Obligations.DecodeModeHasOnlyItsWriters
  intro i s t h hne
  obtain ⟨-, -, ⟨f, -, rfl⟩ | ⟨-, rfl⟩⟩ := exec_next h
  · exact absurd rfl hne
  · rw [doneState_dm] at hne
    cases i with
    | setBcd _ | setRaw _ | sendDigit _ _ _ | sendChar _ _ _ | sendNumberInt _ | sendNumberDec _ _ | clear | fillZeros
    | init _ _ _ _ _ | fini => trivial
    | _ => exact hne rfl

/-- Settles O43: neither next state touches the parameters or the program, and of the completed instructions only INIT
has pins or directions of its own. -/
theorem parametersNeverChange : Obligations.ParametersNeverChange := by
  unfold Obligations.ParametersNeverChange
  refine ⟨fun s t h => ?_, fun i s t h hne => ?_⟩
  · obtain ⟨i, -, -, ⟨f, -, rfl⟩ | rfl⟩ := step_next_cases h
    · exact ⟨setFault_cfg s f, setFault_prog s f⟩
    · exact ⟨doneState_cfg i s, doneState_prog i s⟩
  · obtain ⟨-, -, ⟨f, -, rfl⟩ | ⟨-, rfl⟩⟩ := exec_next h
    · exact hne.elim (absurd rfl) (absurd rfl)
    · exact init_of_pins_or_dir_ne hne

/-! ### Steps and reset -/

/-- Settles O38: `fetchUnit` is the unit at index `ci`, so this is the equation of `step`. -/
theorem stepRunsTheDecodedInstruction : Obligations.StepRunsTheDecodedInstruction := by
  unfold Obligations.StepRunsTheDecodedInstruction
  intro s u i hu hi
  exact step_eq_exec hu hi

/-- Settles O50: at reset both traces are empty, `FINFO` is unset and every field has R33's value. -/
theorem resetMeetsTheInvariants : Obligations.ResetMeetsTheInvariants := by
  unfold Obligations.ResetMeetsTheInvariants
  have htrace : State.reset.traceOk := fun _ _ => ⟨rfl, rfl⟩
  have hlifecycle : State.reset.lifecycleOk := ⟨rfl, rfl, rfl, rfl, rfl, rfl, rfl, rfl⟩
  have hfault : State.reset.faultOk := rfl
  exact ⟨htrace, hlifecycle, hfault, rfl⟩

end Sys2Proof.Machine

/-! ## The register view (20_memory.md) -/

namespace Sys2Proof.Machine

theorem viewedAddress_iff (a : BitVec 4) : viewedAddress a = true ↔ a ≠ 0x0 ∧ a ≠ 0xD ∧ a ≠ 0xE := by
  simp only [viewedAddress, Bool.and_eq_true, bne_iff_ne, and_assoc]

/-- The last word of a trace is applied last (R46). -/
theorem regView_concat (ws : List Word) (w : Word) (a : BitVec 4) :
    regView (ws ++ [w]) a = applyWord a (regView ws a) w :=
  regView_append ws [w] a

/-- `applyWord` tests that the register is viewed and that the word selects it. -/
theorem applyWord_condition_iff (a : BitVec 4) (addr : Byte) :
    (viewedAddress a && addr.extractLsb' 0 4 == a) = true ↔
      a = addr.extractLsb' 0 4 ∧ a ≠ 0x0 ∧ a ≠ 0xD ∧ a ≠ 0xE := by
  rw [Bool.and_eq_true, viewedAddress_iff, beq_iff_eq, and_comm, eq_comm]

/-- Settles O31: the last word is applied to the view of the others, and it writes a register exactly when the low
nibble of its address selects it and R46 defines the write. -/
theorem wordWritesItsRegisterOnly : Obligations.WordWritesItsRegisterOnly := by
  unfold Obligations.WordWritesItsRegisterOnly
  intro ws addr data a
  calc regView (ws ++ [regWord addr data]) a
      _ = applyWord a (regView ws a) (regWord addr data) := regView_concat ws _ a
      _ = if viewedAddress a && addr.extractLsb' 0 4 == a then some data else regView ws a :=
        applyWord_regWord a _ addr data
      _ = _ := by simp only [applyWord_condition_iff]

end Sys2Proof.Machine

/-! ## The encoding (30_encoding.md) -/

namespace Sys2Proof.Machine

/-! ### Register words (R60, R72 to R79) -/

/-- A word is made of its own two fields (R60). -/
theorem regWord_wordAddr_wordData (w : Word) : regWord (wordAddr w) (wordData w) = w :=
  BitVec.extractLsb'_append_extractLsb'_eq_extractLsb' (by decide) |>.trans (BitVec.extractLsb'_eq_self (x := w))

theorem toNat_regWord (addr data : Byte) : (regWord addr data).toNat = addr.toNat * 2 ^ 8 + data.toNat := by
  rw [regWord, BitVec.toNat_append, ← Nat.shiftLeft_add_eq_or_of_lt data.isLt, Nat.shiftLeft_eq]

/-- Settles O56: the two fields are read back by the laws of `regWord`, and its value is that of an append. -/
theorem registerWordHasItsTwoFields : Obligations.RegisterWordHasItsTwoFields := by
  unfold Obligations.RegisterWordHasItsTwoFields
  exact fun addr data => ⟨wordAddr_regWord addr data, wordData_regWord addr data, toNat_regWord addr data⟩

/-- A row tests the address byte and nothing else. -/
theorem row_form : ∀ r ∈ wordRows, r.mask = 0xFF00 ∧ r.pattern = regWord (wordAddr r.pattern) 0x00 := by decide

/-- A row makes the instruction whose word has the row's address. -/
theorem encode_make {r : WordRow} (hr : r ∈ wordRows) (d : Byte) :
    encode (r.make d) = .word (regWord (wordAddr r.pattern) d) := by
  simp only [wordRows, List.mem_cons, List.not_mem_nil, or_false] at hr
  obtain rfl | rfl | rfl | rfl | rfl | rfl | rfl | rfl | rfl | rfl | rfl | rfl | rfl | rfl := hr <;> rfl

/-- A row takes a word exactly when it names the word's address. -/
theorem row_takes_iff {r : WordRow} (hr : r ∈ wordRows) (w : Word) :
    w &&& r.mask = r.pattern ↔ wordAddr w = wordAddr r.pattern := by
  obtain ⟨hmask, hpattern⟩ := row_form r hr
  have hand : w &&& r.mask = regWord (wordAddr w) 0x00 := by
    rw [hmask, ← Laws.DecodeEncode.regWord_mask _ (wordData w), regWord_wordAddr_wordData]
  rw [hand]
  constructor
  · intro h
    rw [← h, wordAddr_regWord]
  · intro h
    rw [h, ← hpattern]

/-- A word that decodes is taken by a row of the table. -/
theorem row_of_decodeWord {w : Word} {i : Instr} (h : decodeWord w = .ok i) :
    ∃ r ∈ wordRows, w &&& r.mask = r.pattern ∧ i = r.make (wordData w) := by
  unfold decodeWord at h
  split at h
  · cases h
  · rename_i r hfind
    exact ⟨r, List.mem_of_find?_eq_some hfind, by simpa using List.find?_some hfind, (Except.ok.inj h).symm⟩

/-- The addresses R72 to R78 name: 0x0 to 0xC and 0xF. -/
def NamedAddr (a : Byte) : Prop := a.toNat ≤ 0x0C ∨ a = 0x0F

/-- The table has a row for every named address, and for no other. -/
theorem exists_row_iff_namedAddr (a : Byte) : (∃ r ∈ wordRows, a = wordAddr r.pattern) ↔ NamedAddr a := by
  have hrows : ∀ r ∈ wordRows, (wordAddr r.pattern).toNat ≤ 0x0C ∨ wordAddr r.pattern = 0x0F := by decide
  have hlow : ∀ n ≤ 0x0C, ∃ r ∈ wordRows, BitVec.ofNat 8 n = wordAddr r.pattern := by decide
  constructor
  · rintro ⟨r, hr, rfl⟩
    exact hrows r hr
  · rintro (ha | rfl)
    · simpa using hlow a.toNat ha
    · decide

/-! ### Commands (R64, R65, R67) -/

theorem opcodeByte_of_opcodeOf {b : Byte} {o : Opcode} (h : opcodeOf b = some o) : opcodeByte o = b := by
  simpa using List.find?_some h

/-- The opcodes from 0x13 up are reserved (R67 (1)). -/
theorem opcodeByte_lt (o : Opcode) : (opcodeByte o).toNat < 0x13 := by cases o <;> decide

/-- What an opcode and its whole operand list spell is encoded by them. -/
theorem encode_of_commandOf {o : Opcode} {full : List Operand} {i : Instr} (h : commandOf o full = some i) :
    encode i = commandUnit o full := by
  cases o <;>
  · simp only [commandOf] at h
    split at h <;> cases h
    rfl

/-- An instruction is spellable exactly when every operand of its command fits its width. -/
theorem spellable_eq_all_fits {i : Instr} {b : Byte} {full : List Operand} (h : encode i = .command b full)
    (cfg : Config) : i.spellable cfg = full.all (Operand.fits cfg) := by
  cases i <;> cases h <;> simp [Instr.spellable, Operand.fits]

/-- A bare word has no operand with a width of its own. -/
theorem spellable_of_encode_word {i : Instr} {w : Word} (h : encode i = .word w) (cfg : Config) :
    i.spellable cfg = true := by
  cases i <;> cases h <;> rfl

/-- What a command that decodes is: its opcode is a row's, its full operands fit, and the row spells the instruction. -/
theorem row_of_decodeCommand {cfg : Config} {b : Byte} {operands : List Operand} {i : Instr}
    (h : decodeCommand cfg b operands = .ok i) :
    ∃ o, opcodeOf b = some o ∧ (fillOperands cfg o operands).all (Operand.fits cfg) = true ∧
      commandOf o (fillOperands cfg o operands) = some i := by
  unfold decodeCommand at h
  split at h
  · cases h
  · rename_i o ho
    dsimp only at h
    split at h
    · cases h
    · rename_i j hj
      cases h
      rw [Option.ite_none_right_eq_some] at hj
      exact ⟨o, ho, hj⟩

/-- Settles O59: `row_of_decodeCommand` gives the row, and the row's operands are the given ones and the defaults. -/
theorem commandsDecodeByTheirOpcode : Obligations.CommandsDecodeByTheirOpcode := by
  unfold Obligations.CommandsDecodeByTheirOpcode
  intro cfg b operands i h
  obtain ⟨o, ho, hfits, hrow⟩ := row_of_decodeCommand h
  obtain rfl := opcodeByte_of_opcodeOf ho
  have henc := encode_of_commandOf hrow
  exact ⟨opcodeByte_lt o, ⟨_, henc⟩, (spellable_eq_all_fits henc cfg).trans hfits⟩

/-! ### The round trip -/

/-- Only the two number commands have an operand that can be too wide; a bare word decodes by its row, and every other
command by its signature, at every value of its operands. -/
theorem decode_encode {cfg : Config} {i : Instr} (h : i.spellable cfg = true) : decode cfg (encode i) = .ok i := by
  cases i with
  | sendNumberInt n => exact Laws.DecodeEncode.sendNumberInt n cfg h
  | sendNumberDec x p => exact Laws.DecodeEncode.sendNumberDec x p cfg h
  | noop data | digit1 data | digit2 data | digit3 data | digit4 data | digit5 data | digit6 data | digit7 data
  | digit8 data | decodeMode data | intensity data | scanLimit data | shutdown data | displayTest data =>
    exact Laws.DecodeEncode.decodeWord_regWord _ data
  | _ => rfl

/-- Whatever decodes to an instruction has only operands that fit: a word has none that could be too wide, and a command
is refused otherwise. -/
theorem spellable_of_decode_encode {cfg : Config} {i : Instr} (h : decode cfg (encode i) = .ok i) :
    i.spellable cfg = true := by
  cases henc : encode i with
  | word w => exact spellable_of_encode_word henc cfg
  | command b full =>
    rw [henc] at h
    obtain ⟨-, -, hspell⟩ := commandsDecodeByTheirOpcode cfg b full i h
    exact hspell

/-- Settles O57: `decode_encode` is the one direction, and the width check of the decoder the other. -/
theorem decodeGivesBackEveryEncoding : Obligations.DecodeGivesBackEveryEncoding := by
  unfold Obligations.DecodeGivesBackEveryEncoding
  exact fun _ _ => ⟨spellable_of_decode_encode, decode_encode⟩

/-- A word decodes to the instruction it encodes, and to nothing else. -/
theorem decodeWord_eq_ok_iff {w : Word} {i : Instr} : decodeWord w = .ok i ↔ encode i = .word w := by
  constructor
  · intro h
    obtain ⟨r, hr, htake, rfl⟩ := row_of_decodeWord h
    rw [encode_make hr, ← (row_takes_iff hr w).mp htake, regWord_wordAddr_wordData]
  · intro henc
    have h := decode_encode (spellable_of_encode_word henc Config.standard)
    rwa [henc] at h

/-- Some instruction has the word exactly when a row names its address. -/
theorem decodeWord_isOk_iff (w : Word) : (∃ i, decodeWord w = .ok i) ↔ NamedAddr (wordAddr w) := by
  rw [← exists_row_iff_namedAddr]
  constructor
  · rintro ⟨i, h⟩
    obtain ⟨r, hr, htake, -⟩ := row_of_decodeWord h
    exact ⟨r, hr, (row_takes_iff hr w).mp htake⟩
  · rintro ⟨r, hr, haddr⟩
    refine ⟨r.make (wordData w), decodeWord_eq_ok_iff.mpr ?_⟩
    rw [encode_make hr, ← haddr, regWord_wordAddr_wordData]

/-- Settles O58: the decoder's rows are the encoder's, and they name exactly the addresses of R72 to R78. -/
theorem wordsDecodeToTheirOwnRow : Obligations.WordsDecodeToTheirOwnRow := by
  unfold Obligations.WordsDecodeToTheirOwnRow
  exact fun w => ⟨fun _ => decodeWord_eq_ok_iff.mp, decodeWord_isOk_iff w⟩

/-- Settles O60: a unit with every operand written is an encoding; the others fill in a default or are refused. -/
theorem sampleUnitsDecodeAsWritten : Obligations.SampleUnitsDecodeAsWritten := by
  unfold Obligations.SampleUnitsDecodeAsWritten
  have hdigit := decode_encode (cfg := Config.standard) (i := .sendDigit 3 0x05 true) rfl
  have hleast := decode_encode (cfg := Config.standard) (i := .sendNumberInt (-2147483648)) rfl
  have hmode := decode_encode (cfg := Config.standard) (i := .decodeMode 0xF3) rfl
  have hshutdown := decode_encode (cfg := Config.standard) (i := .shutdown 0x01) rfl
  exact ⟨hdigit, rfl, hleast, rfl, rfl, rfl, rfl, hmode, hshutdown, rfl⟩

end Sys2Proof.Machine

/-! ## The words commands form, and what they show (30_encoding.md R63, R73) -/

namespace Sys2Proof.Machine

/-! ### The words of SEND_DIGIT and SEND_CHAR (R140, R143) -/

/-- The position check that SEND_DIGIT and SEND_CHAR share in `violation`: without a violation the position is legal. -/
theorem position_legal_of_no_violation {pos : Nat} {f : FaultInfo}
    (h : (if pos < 1 ∨ pos > 8 then some f else none) = none) : 1 ≤ pos ∧ pos ≤ 8 := by
  rw [ite_eq_right_iff] at h
  have hlegal : ¬ (pos < 1 ∨ pos > 8) := fun hp => Option.some_ne_none f (h hp)
  omega

/-- A digit already in the class of the value keeps the register. -/
theorem dmAfter_sendDigit_of_dmBit_eq {s : State} {pos : Nat} {v : Byte} (dot : Bool)
    (h : dmBit s.dm (pos - 1) = bcdCapable v) : dmAfter s (.sendDigit pos v dot) = s.dm := by
  rw [dmAfter_sendDigit]
  split
  · rename_i hv
    exact or_digitBit_self (h.trans hv)
  · rename_i hv
    exact and_not_digitBit_self (h.trans (eq_false_of_ne_true hv))

/-- The mode of the written digit is the class of the value. -/
theorem dmBit_dmAfter_sendDigit {pos : Nat} (h1 : 1 ≤ pos) (h8 : pos ≤ 8) (s : State) (v : Byte) (dot : Bool) :
    dmBit (dmAfter s (.sendDigit pos v dot)) (pos - 1) = bcdCapable v := by
  have hlt : pos - 1 < 8 := by omega
  rw [dmAfter_sendDigit]
  cases bcdCapable v
  · simp [dmBit_and_not _ _ _ hlt, dmBit_digitBit, hlt]
  · simp [dmBit_digitBit, hlt]

/-- SEND_DIGIT emits the whole register where the digit's mode is not the value's class, then the digit word. -/
theorem emitted_sendDigit (s : State) (pos : Nat) (v : Byte) (dot : Bool) :
    emitted s (.sendDigit pos v dot) =
      (if dmBit s.dm (pos - 1) = bcdCapable v then [] else [regWord 0x09 (dmAfter s (.sendDigit pos v dot))]) ++
        [regWord (BitVec.ofNat 8 pos) (digitData v dot)] := by
  rw [dmAfter_sendDigit]
  cases hv : bcdCapable v
  · cases hd : dmBit s.dm (pos - 1) <;> simp [emitted, hv, hd, rawWords, digitData]
  · simp [emitted, hv, bcdWords]

/-! ### The addresses formed (R63) -/

/-- The positions 1 to 8 are named addresses (R73). -/
theorem namedAddr_position {pos : Nat} (h8 : pos ≤ 8) : NamedAddr (BitVec.ofNat 8 pos) := by
  left
  rw [BitVec.toNat_ofNat]
  omega

/-- Every word of a list has a named address. -/
def AllNamed (ws : List Word) : Prop := ∀ w ∈ ws, NamedAddr (wordAddr w)

theorem allNamed_append {us vs : List Word} (hu : AllNamed us) (hv : AllNamed vs) : AllNamed (us ++ vs) := fun w hw =>
  (List.mem_append.mp hw).elim (hu w) (hv w)

theorem allNamed_singleton {a : Byte} (d : Byte) (ha : NamedAddr a) : AllNamed [regWord a d] := by
  intro w hw
  rwa [List.mem_singleton.mp hw, wordAddr_regWord]

/-- One word to a register in the unbroken range of R72 to R77. -/
theorem allNamed_low {a d : Byte} (ha : a.toNat ≤ 0x0C := by decide) : AllNamed [regWord a d] :=
  allNamed_singleton d (.inl ha)

/-- A BCD stream at legal positions forms DECODE_MODE's address and its positions' own. -/
theorem allNamed_bcdWords (dm : Byte) {es : List DigitEntry} (hpos : ∀ e ∈ es, e.1 ≤ 8) :
    AllNamed (bcdWords dm es) := by
  intro w hw
  obtain ⟨m, rfl⟩ | ⟨e, he, rfl⟩ := mem_bcdWords hw
  · rw [wordAddr_regWord]
    exact .inl (by decide)
  · rw [wordAddr_regWord]
    exact namedAddr_position (hpos e he)

theorem allNamed_sameEverywhere (dm data : Byte) : AllNamed (bcdWords dm (sameEverywhere data)) :=
  allNamed_bcdWords dm (by simp [sameEverywhere])

theorem allNamed_emitted_sendDigit {pos : Nat} (h8 : pos ≤ 8) (s : State) (v : Byte) (dot : Bool) :
    AllNamed (emitted s (.sendDigit pos v dot)) := by
  rw [emitted_sendDigit]
  refine allNamed_append ?_ (allNamed_singleton _ (namedAddr_position h8))
  split
  · exact List.forall_mem_nil _
  · exact allNamed_low

/-- A completed instruction other than SEND_WORD emits words to named addresses only: its own register, or the
positions' and DECODE_MODE's. -/
theorem allNamed_emitted {i : Instr} (s : State) (hv : violation i = none) (hi : ∀ w, i ≠ .sendWord w) :
    AllNamed (emitted s i) := by
  cases i with
  | sendWord w => exact absurd rfl (hi w)
  | bitmaskFor _ | bitmaskForNum _ | isBcd _ => exact List.forall_mem_nil _
  | sendDigit pos v dot =>
    obtain ⟨-, h8⟩ := position_legal_of_no_violation hv
    exact allNamed_emitted_sendDigit h8 s v dot
  | sendChar pos g dot =>
    obtain ⟨-, h8⟩ := position_legal_of_no_violation hv
    exact allNamed_bcdWords s.dm (by simpa using h8)
  | sendNumberInt n => exact allNamed_bcdWords s.dm fun e he => (intEntries_positions he).2
  | sendNumberDec x p => exact allNamed_bcdWords s.dm fun e he => (decEntries_positions he).2
  | clear | fillZeros => exact allNamed_sameEverywhere s.dm _
  | init din clk load sl it =>
    have hfirst : AllNamed [regWord 0x0B (scanData s.cfg.scanLimitMode sl), regWord 0x0A (intensityData it),
        regWord 0x09 0xFF] :=
      allNamed_append allNamed_low (allNamed_append allNamed_low allNamed_low)
    exact allNamed_append (allNamed_append hfirst (allNamed_sameEverywhere _ _)) allNamed_low
  | fini => exact allNamed_append (allNamed_sameEverywhere s.dm _) allNamed_low
  | setDisplayTest _ | displayTest _ => exact allNamed_singleton _ (.inr rfl)
  | _ => exact allNamed_low

/-- Settles O44: a violation appends no word, and `allNamed_emitted` is the case of completion. -/
theorem onlySendWordFormsUnnamedAddresses : Obligations.OnlySendWordFormsUnnamedAddresses := by
  unfold Obligations.OnlySendWordFormsUnnamedAddresses
  intro i s t h hi w hw
  obtain ⟨-, -, ⟨f, -, rfl⟩ | ⟨hv, rfl⟩⟩ := exec_next h
  · simp at hw
  · rw [doneState_wt, List.drop_left] at hw
    exact allNamed_emitted s hv hi w hw

/-! ### What SEND_DIGIT shows (R73, R141, R142) -/

/-- The digit word of a position writes the digit register of that position. -/
theorem regView_digitWord {pos : Nat} (h1 : 1 ≤ pos) (h8 : pos ≤ 8) (ws : List Word) (d : Byte) :
    regView (ws ++ [regWord (BitVec.ofNat 8 pos) d]) (BitVec.ofNat 4 pos) = some d := by
  rw [regView_concat, applyWord_regWord]
  interval_cases pos <;> rfl

/-- The digit word of a position leaves the decode-mode register. -/
theorem regView_mode_digitWord {pos : Nat} (h1 : 1 ≤ pos) (h8 : pos ≤ 8) (ws : List Word) (d : Byte) :
    regView (ws ++ [regWord (BitVec.ofNat 8 pos) d]) 0x9 = regView ws 0x9 := by
  rw [regView_concat, applyWord_regWord]
  simp [position_address h1 h8]

/-- A DECODE_MODE word writes the decode-mode register. -/
theorem regView_modeWord (ws : List Word) (m : Byte) : regView (ws ++ [regWord 0x09 m]) 0x9 = some m := by
  rw [regView_concat, applyWord_regWord]
  rfl

/-- SEND_DIGIT leaves the chip's decode-mode register equal to `DM` (R245). -/
theorem regView_mode_sendDigit {s : State} (hs : s.coherent) {pos : Nat} (h1 : 1 ≤ pos) (h8 : pos ≤ 8) (v : Byte)
    (dot : Bool) :
    regView (s.wt ++ emitted s (.sendDigit pos v dot)) 0x9 = some (dmAfter s (.sendDigit pos v dot)) := by
  rw [emitted_sendDigit, ← List.append_assoc, regView_mode_digitWord h1 h8]
  split
  · rename_i heq
    rw [List.append_nil, dmAfter_sendDigit_of_dmBit_eq dot heq]
    exact hs
  · exact regView_modeWord _ _

/-- SEND_DIGIT's last word leaves its data byte in its position's register. -/
theorem regView_digit_sendDigit (s : State) {pos : Nat} (h1 : 1 ≤ pos) (h8 : pos ≤ 8) (v : Byte) (dot : Bool) :
    regView (s.wt ++ emitted s (.sendDigit pos v dot)) (BitVec.ofNat 4 pos) = some (digitData v dot) := by
  rw [emitted_sendDigit, ← List.append_assoc]
  exact regView_digitWord h1 h8 _ _

/-- The data byte of a BCD-capable value is its code in the low nibble and the dot in bit 7 (R141). -/
theorem digitData_fields {v : Byte} (hv : v.toNat ≤ 15) (dot : Bool) :
    (digitData v dot).extractLsb' 0 4 = v.extractLsb' 0 4 ∧ (digitData v dot).getLsbD 7 = dot := by
  have hbcd : bcdCapable v = true := decide_eq_true hv
  have htop : v.getLsbD 7 = false := Nat.testBit_lt_two_pow (by omega)
  rw [digitData, if_pos hbcd, BitVec.extractLsb'_or, BitVec.getLsbD_or, htop]
  cases dot <;> simp

/-- Under the mode of its own class a value's data byte shows the value. -/
theorem shownByte_digitData (v : Byte) (dot : Bool) :
    shownByte (bcdCapable v) (digitData v dot) =
      if v.toNat ≤ 15 then .symbol (symbolOf (v.extractLsb' 0 4)) dot else .segments v := by
  by_cases hv : v.toNat ≤ 15
  · obtain ⟨hcode, hdot⟩ := digitData_fields hv dot
    have hbcd : bcdCapable v = true := decide_eq_true hv
    simp only [shownByte, hbcd, hv, if_true, hcode, hdot]
  · simp [shownByte, digitData, bcdCapable, hv]

/-- Settles O54: after the words of SEND_DIGIT the decode-mode register is `DM`, whose bit for the position is the class
of the value, and the position's register is the value's data byte. -/
theorem sendDigitShowsTheValue : Obligations.SendDigitShowsTheValue := by
  unfold Obligations.SendDigitShowsTheValue
  intro s t pos v dot hs h hfault
  obtain ⟨-, -, ⟨f, -, rfl⟩ | ⟨hv, rfl⟩⟩ := exec_next h
  · exact absurd hfault (by simp)
  · obtain ⟨h1, h8⟩ := position_legal_of_no_violation hv
    rw [doneState_wt, shownAt, regView_mode_sendDigit hs h1 h8, regView_digit_sendDigit s h1 h8]
    exact congrArg some (by rw [dmBit_dmAfter_sendDigit h1 h8, shownByte_digitData])

end Sys2Proof.Machine

/-! ## The expansions of the pseudo-commands (30_encoding.md R70) -/

namespace Sys2Proof.Machine

/-- The fields R70 speaks of, with what decides whether the next command is accepted. -/
def SameEffect (t u : State) : Prop :=
  t.dm = u.dm ∧ t.wt = u.wt ∧ t.pt = u.pt ∧ t.lines = u.lines ∧ t.lc = u.lc ∧ t.fault = u.fault

theorem SameEffect.refl (s : State) : SameEffect s s := ⟨rfl, rfl, rfl, rfl, rfl, rfl⟩

theorem SameEffect.trans {s t u : State} (hst : SameEffect s t) (htu : SameEffect t u) : SameEffect s u := by
  obtain ⟨hdm, hwt, hpt, hlines, hlc, hf⟩ := hst
  obtain ⟨hdm', hwt', hpt', hlines', hlc', hf'⟩ := htu
  exact ⟨hdm.trans hdm', hwt.trans hwt', hpt.trans hpt', hlines.trans hlines', hlc.trans hlc', hf.trans hf'⟩

theorem SameEffect.symm {s t : State} (h : SameEffect s t) : SameEffect t s := by
  obtain ⟨hdm, hwt, hpt, hlines, hlc, hf⟩ := h
  exact ⟨hdm.symm, hwt.symm, hpt.symm, hlines.symm, hlc.symm, hf.symm⟩

theorem SameEffect.ready {s t : State} (h : SameEffect s t) (hs : s.ready) : t.ready := by
  obtain ⟨-, -, -, -, hlc, hf⟩ := h
  exact ⟨hlc.symm.trans hs.1, hf.symm.trans hs.2⟩

/-- The same words sent after the same effect. -/
theorem SameEffect.withWords {s t : State} (h : SameEffect s t) (ws : List Word) (dm : Byte) :
    SameEffect (withWords s ws dm) (withWords t ws dm) := by
  obtain ⟨-, hwt, hpt, -, hlc, hf⟩ := h
  exact ⟨rfl, congrArg (· ++ ws) hwt, congrArg (· ++ wordsPins ws) hpt, rfl, hlc, hf⟩

/-- What one SEND_DIGIT call appends depends on `DM` alone. -/
theorem sendDigit_eq_withWords (pos : Nat) (v : Byte) (dot : Bool) (s : State) :
    sendDigit pos v dot s =
      withWords s (emitted s (.sendDigit pos v dot)) (dmAfter s (.sendDigit pos v dot)) := by
  rw [dmAfter_sendDigit]
  cases hv : bcdCapable v
  · simp [sendDigit_raw hv, emitted, hv]
  · simp [sendDigit_bcd hv, emitted, hv, bcdMask]

theorem SameEffect.sendDigit {s t : State} (h : SameEffect s t) (pos : Nat) (v : Byte) (dot : Bool) :
    SameEffect (sendDigit pos v dot s) (sendDigit pos v dot t) := by
  have hdm : s.dm = t.dm := h.1
  simp only [sendDigit_eq_withWords, emitted_sendDigit, dmAfter_sendDigit, hdm]
  exact h.withWords _ _

theorem sendDigit_ready {s : State} (hs : s.ready) (pos : Nat) (v : Byte) (dot : Bool) :
    (sendDigit pos v dot s).ready := by
  rw [sendDigit_eq_withWords]
  exact hs

/-- Completing a command changes only `ci` and the returned value. -/
theorem complete_sameEffect (r : Option QueryResult) (s : State) : ∃ t, complete r s = .next t ∧ SameEffect t s :=
  ⟨{ s with ci := s.ci + 1, result := r }, rfl, .refl s⟩

/-! ### SEND_DIGIT and SEND_CHAR in a ready block -/

theorem exec_sendDigit_ready {s : State} (hs : s.ready) (pos : Nat) (v : Byte) (dot : Bool) :
    exec (.sendDigit pos v dot) s = sendDigitChecked .sendDigit pos v dot s :=
  whenAllowed_run hs.2 hs.1 _

theorem exec_sendChar_ready {s : State} (hs : s.ready) (pos : Nat) (g : Glyph) (dot : Bool) :
    exec (.sendChar pos g dot) s = sendDigitChecked .sendChar pos (glyphCode g) dot s :=
  whenAllowed_run hs.2 hs.1 _

/-- SEND_CHAR and SEND_DIGIT of the glyph's code differ at most in the opcode a fault records (R143). -/
theorem sendDigitChecked_sameEffect (op op' : Opcode) (pos : Nat) (v : Byte) (dot : Bool) (s : State) :
    ∃ t u, sendDigitChecked op pos v dot s = .next t ∧ sendDigitChecked op' pos v dot s = .next u ∧
      SameEffect t u := by
  by_cases hp : pos < 1 ∨ pos > 8
  · rw [sendDigitChecked_illegal hp, sendDigitChecked_illegal hp]
    exact ⟨_, _, rfl, rfl, rfl, rfl, rfl, rfl, rfl, rfl⟩
  · rw [sendDigitChecked_legal hp, sendDigitChecked_legal hp]
    exact ⟨_, _, rfl, rfl, .refl _⟩

/-! ### Runs of SEND_DIGIT calls -/

/-- `i` runs from any ready state and has the effect of the call `c`. -/
def PerformsCall (i : Instr) (c : DigitCall) : Prop :=
  ∀ s : State, s.ready → ∃ t, exec i s = .next t ∧ SameEffect t (sendDigit c.pos c.value c.dot s)

theorem performsCall_sendDigit {pos : Nat} (hp : ¬ (pos < 1 ∨ pos > 8)) (v : Byte) (dot : Bool) :
    PerformsCall (.sendDigit pos v dot) ⟨pos, v, dot⟩ := by
  intro s hs
  rw [exec_sendDigit_ready hs, sendDigitChecked_legal hp]
  exact complete_sameEffect none _

theorem performsCall_sendChar {pos : Nat} (hp : ¬ (pos < 1 ∨ pos > 8)) (g : Glyph) (dot : Bool) :
    PerformsCall (.sendChar pos g dot) ⟨pos, glyphCode g, dot⟩ := by
  intro s hs
  rw [exec_sendChar_ready hs, sendDigitChecked_legal hp]
  exact complete_sameEffect none _

/-- Instructions that perform calls, run one after another, have the effect of the calls made inside one command. -/
theorem runInstrs_sameEffect_sendCalls {α : Type} (instr : α → Instr) (call : α → DigitCall) (xs : List α)
    (hxs : ∀ x ∈ xs, PerformsCall (instr x) (call x)) {s s' : State} (hss' : SameEffect s s') (hs : s.ready) :
    ∃ u, runInstrs (xs.map instr) s = .next u ∧ SameEffect u (sendCalls (xs.map call) s') := by
  induction xs generalizing s s' with
  | nil => exact ⟨s, rfl, hss'⟩
  | cons x xs ih =>
    obtain ⟨t, ht, hts⟩ := hxs x (by simp) s hs
    have hready : t.ready := hts.symm.ready (sendDigit_ready hs _ _ _)
    obtain ⟨u, hu, hus⟩ :=
      ih (fun y hy => hxs y (List.mem_cons_of_mem _ hy)) (hts.trans (hss'.sendDigit _ _ _)) hready
    refine ⟨u, ?_, hus⟩
    rw [List.map_cons, runInstrs, ht]
    exact hu

/-! ### The seven expansions -/

/-- R70's claim for one instruction, list and state. -/
def ExpandsTo (i : Instr) (is : List Instr) (s : State) : Prop :=
  ∃ t u, exec i s = .next t ∧ runInstrs is s = .next u ∧ SameEffect t u

theorem runInstrs_singleton (i : Instr) (s : State) : runInstrs [i] s = exec i s := by
  rw [runInstrs]
  cases exec i s <;> rfl

theorem expandsTo_sendChar {s : State} (hs : s.ready) (pos : Nat) (g : Glyph) (dot : Bool) :
    ExpandsTo (.sendChar pos g dot) [.sendDigit pos (glyphCode g) dot] s := by
  rw [ExpandsTo, runInstrs_singleton, exec_sendChar_ready hs, exec_sendDigit_ready hs]
  exact sendDigitChecked_sameEffect _ _ pos _ dot s

/-- A command that sends one value everywhere, against eight instructions that each send it at their position. -/
theorem expandsTo_allPositions {i : Instr} {s : State} (hs : s.ready) (v : Byte) (instr : Nat → Instr)
    (hexec : exec i s = whenAllowed .live s fun s => complete none (sendCalls (allPositions v) s))
    (hinstr : ∀ d < 8, PerformsCall (instr d) ⟨d + 1, v, false⟩) : ExpandsTo i ((List.range 8).map instr) s := by
  obtain ⟨u, hu, hus⟩ := runInstrs_sameEffect_sendCalls instr (fun d => ⟨d + 1, v, false⟩) (List.range 8)
    (fun d hd => hinstr d (List.mem_range.mp hd)) (.refl s) hs
  obtain ⟨t, ht, hts⟩ := complete_sameEffect none (sendCalls (allPositions v) s)
  exact ⟨t, u, hexec.trans ((whenAllowed_run hs.2 hs.1 _).trans ht), hu, hts.trans hus.symm⟩

theorem expandsTo_clear {s : State} (hs : s.ready) :
    ExpandsTo .clear ((List.range 8).map fun d => .sendChar (d + 1) .blank false) s :=
  expandsTo_allPositions hs (glyphCode .blank) _ rfl fun d hd => performsCall_sendChar (by omega) .blank false

theorem expandsTo_fillZeros {s : State} (hs : s.ready) :
    ExpandsTo .fillZeros ((List.range 8).map fun d => .sendDigit (d + 1) 0x00 false) s :=
  expandsTo_allPositions hs 0x00 _ rfl fun d hd => performsCall_sendDigit (by omega) 0x00 false

/-- A command that sends one word, against SEND_WORD of that word. -/
theorem expandsTo_sendWord {i : Instr} {s : State} (hs : s.ready) (w : Word)
    (hexec : exec i s = whenAllowed .live s fun s => complete none (emitWord w s)) : ExpandsTo i [.sendWord w] s := by
  have hword : exec (.sendWord w) s = whenAllowed .live s fun s => complete none (emitWord w s) := rfl
  rw [ExpandsTo, runInstrs_singleton, hexec, hword, whenAllowed_run hs.2 hs.1, complete_emitWord]
  exact ⟨_, _, rfl, rfl, .refl _⟩

/-- SHUTDOWN's words, its logic inverted (R77, R182). -/
theorem shutdownWord (b : Bool) : regWord 0x0C (shutdownData b) = if b then 0x0C00 else 0x0C01 := by cases b <;> rfl

/-- DISPLAY_TEST's words (R78, R183). -/
theorem displayTestWord (b : Bool) : regWord 0x0F (displayTestData b) = if b then 0x0F01 else 0x0F00 := by
  cases b <;> rfl

/-- INTENSITY's word (R75, R180). -/
theorem intensityWord (v : Byte) :
    regWord 0x0A (intensityData v) = 0x0A00 ||| BitVec.ofNat 16 (v.toNat / 16) := by
  have hdata : (intensityData v).setWidth 16 = BitVec.ofNat 16 (v.toNat / 16) := by
    rw [← BitVec.ofNat_toNat, intensityData, BitVec.toNat_udiv]
    rfl
  rw [← hdata]
  exact BitVec.append_def _ _

/-- Settles O55: three shapes of expansion, a SEND_DIGIT, eight positions, or one SEND_WORD. -/
theorem expansionsHaveTheSameEffect : Obligations.ExpansionsHaveTheSameEffect := by
  unfold Obligations.ExpansionsHaveTheSameEffect
  intro i is s h hs
  change ExpandsTo i is s
  cases i with
  | sendChar pos g dot => cases h; exact expandsTo_sendChar hs pos g dot
  | clear => cases h; exact expandsTo_clear hs
  | fillZeros => cases h; exact expandsTo_fillZeros hs
  | sendNop d => cases h; exact expandsTo_sendWord hs _ rfl
  | setShutdown b => cases h; rw [← shutdownWord]; exact expandsTo_sendWord hs _ rfl
  | setDisplayTest b => cases h; rw [← displayTestWord]; exact expandsTo_sendWord hs _ rfl
  | setIntensity v => cases h; rw [← intensityWord]; exact expandsTo_sendWord hs _ rfl
  | _ => cases h

end Sys2Proof.Machine

/-! ## The serializer (40_serializer.md) -/

namespace Sys2Proof.Machine

/-! ### One word's pin calls: R101's order, R102's table -/

/-- R102's 53 entries are R101's calls in order, with the loop written out. -/
theorem wordPins_eq_calls (w : Word) :
    wordPins w = [.set .load false] ++
      ([15, 14, 13, 12, 11, 10, 9, 8, 7, 6, 5, 4, 3, 2, 1, 0].flatMap fun i =>
        [.set .clk false, .set .din (w.getLsbD i), .set .clk true]) ++
      [.set .clk false, .set .load true, .set .load false, .set .din false] :=
  rfl

/-- Settles O2: `emitWord_eq` is the whole effect, with R102's table for the calls. -/
theorem emitWordMakesItsPinCallsInOrder : Obligations.EmitWordMakesItsPinCallsInOrder := by
  unfold Obligations.EmitWordMakesItsPinCallsInOrder
  intro w s
  rw [emitWord_eq, wordPins_eq_calls, linesLow]

theorem emitWord_pt (w : Word) (s : State) : (emitWord w s).pt = s.pt ++ wordPins w := by rw [emitWord_eq]

/-- The entries of an emitted word stand in R102's order after the entries before it. -/
theorem emitWord_pt_getElem? (w : Word) (s : State) {k : Nat} (hk : k < 53) :
    (emitWord w s).pt[s.pt.length + k]? = some (wordEntry w k) := by
  rw [emitWord_pt, List.getElem?_append_right (Nat.le_add_right _ _), Nat.add_sub_cancel_left, wordPins,
    List.getElem?_map, List.getElem?_range hk, Option.map_some]

/-! The three rows of R102's table for the bit step `k`. -/

theorem wordEntry_clkLow (w : Word) {k : Nat} (hk : k < 16) : wordEntry w (1 + 3 * k) = .set .clk false := by
  have hbits : 1 + 3 * k < 49 := by omega
  have hrow : (1 + 3 * k) % 3 = 1 := by omega
  simp [wordEntry, hbits, hrow]

theorem wordEntry_din (w : Word) {k : Nat} (hk : k < 16) :
    wordEntry w (2 + 3 * k) = .set .din (w.getLsbD (15 - k)) := by
  have hbits : 2 + 3 * k < 49 := by omega
  have hrow : (2 + 3 * k) % 3 = 2 := by omega
  simp [wordEntry, hbits, hrow]

theorem wordEntry_clkHigh (w : Word) {k : Nat} (hk : k < 16) : wordEntry w (3 + 3 * k) = .set .clk true := by
  have hbits : 3 + 3 * k < 49 := by omega
  have hrow : (3 + 3 * k) % 3 = 0 := by omega
  simp [wordEntry, hbits, hrow]

/-- Settles O3: each index is looked up in R102's table. -/
theorem wordHasItsFiftyThreeEntries : Obligations.WordHasItsFiftyThreeEntries := by
  unfold Obligations.WordHasItsFiftyThreeEntries
  intro w s
  have hentry : ∀ k < 53, (emitWord w s).pt[s.pt.length + k]? = some (wordEntry w k) :=
    fun k hk => emitWord_pt_getElem? w s hk
  refine ⟨by rw [emitWord_pt, List.length_append, wordPins_length], fun k hk => ⟨?_, ?_, ?_⟩,
    hentry 0 (by decide), hentry 49 (by decide), hentry 50 (by decide), hentry 51 (by decide), hentry 52 (by decide)⟩
  · rw [hentry _ (by omega), wordEntry_clkLow w hk]
  · rw [hentry _ (by omega), wordEntry_din w hk]
  · rw [hentry _ (by omega), wordEntry_clkHigh w hk]

/-! ### One word at the chip: R104's pulses, R105's latch -/

theorem bitEntries_length (w : Word) (n : Nat) : (bitEntries w n).length = 3 * n := by
  induction n with
  | zero => rfl
  | succ n ih => simp only [bitEntries, List.length_cons, ih]; omega

/-- Each bit step raises the clock once. -/
theorem count_clkHigh_bitEntries (w : Word) (n : Nat) : (bitEntries w n).count (.set .clk true) = n := by
  induction n with
  | zero => rfl
  | succ n ih => simp [bitEntries, ih]

/-- No bit step touches LOAD. -/
theorem count_loadHigh_bitEntries (w : Word) (n : Nat) : (bitEntries w n).count (.set .load true) = 0 := by
  induction n with
  | zero => rfl
  | succ n ih => simp [bitEntries, ih]

/-- The 50 entries before the latch pulse: LOAD low, the bits, the clock low. -/
def shiftCalls (w : Word) : List PinCall := .set .load false :: (bitEntries w 16 ++ [.set .clk false])

theorem wordPins_eq_shiftCalls (w : Word) :
    wordPins w = shiftCalls w ++ [.set .load true, .set .load false, .set .din false] :=
  rfl

theorem shiftCalls_length (w : Word) : (shiftCalls w).length = 50 := by simp [shiftCalls, bitEntries_length]

theorem count_clkHigh_shiftCalls (w : Word) : (shiftCalls w).count (.set .clk true) = 16 := by
  simp [shiftCalls, count_clkHigh_bitEntries]

theorem count_loadHigh_shiftCalls (w : Word) : (shiftCalls w).count (.set .load true) = 0 := by
  simp [shiftCalls, count_loadHigh_bitEntries]

/-- Settles O4: the sixteen clock pulses lie before the latch pulse, and LOAD is raised only after them. -/
theorem wordKeepsThePinProtocol : Obligations.WordKeepsThePinProtocol := by
  unfold Obligations.WordKeepsThePinProtocol
  intro w s levels
  refine ⟨wordPins w, emitWord_pt w s, pinOrderOk_word levels w, ?_, ?_, ?_⟩
  · rw [wordPins_eq_shiftCalls, List.count_append, count_clkHigh_shiftCalls]; rfl
  · rw [wordPins_eq_shiftCalls, List.count_append, count_loadHigh_shiftCalls]; rfl
  · rw [wordPins_eq_shiftCalls, List.take_left' (shiftCalls_length w), count_loadHigh_shiftCalls]

/-- Settles O5: the word's entries are replayed after the trace before them, and `receive_word` holds from any receiver. -/
theorem receiverLatchesTheEmittedWord : Obligations.ReceiverLatchesTheEmittedWord := by
  unfold Obligations.ReceiverLatchesTheEmittedWord
  intro unknown sr0 w s
  rw [receiverOf, emitWord_pt, receiveAll_append, receive_word]
  rfl

/-! ### SEND_WORD (R100) -/

/-- R64's row of SEND_WORD, with the opcode byte written out. -/
theorem encode_sendWord (w : Word) : encode (.sendWord w) = .command 0x00 [.u16 w] := rfl

/-- In a ready block SEND_WORD is `emitWord` and completes. -/
theorem exec_sendWord_ready {s : State} (hs : s.ready) (w : Word) :
    exec (.sendWord w) s = complete none (emitWord w s) := by
  obtain ⟨hl, hf⟩ := hs
  rw [exec, execSendWord, whenAllowed_run hf hl]

/-- Settles O1: SEND_WORD is `emitWord` behind R222's checks. -/
theorem sendWordSendsAnyWordAsGiven : Obligations.SendWordSendsAnyWordAsGiven := by
  unfold Obligations.SendWordSendsAnyWordAsGiven
  intro s w
  refine ⟨fun hs => ?_, fun hf => exec_faulted (.sendWord w) hf, fun hf hl => exec_lifecycle hf hl, ?_⟩
  · rw [exec_sendWord_ready hs, complete_emitWord]
  · rw [← encode_sendWord]
    exact decode_encode rfl

/-! ### The pin order of the whole trace (R104, R244) -/

/-- Before INIT no pin call has been made (R33). -/
theorem pt_eq_nil_of_lifecycleOk {s : State} (hs : s.lifecycleOk) (hl : s.lc = .uninit) : s.pt = [] := by
  rw [State.lifecycleOk, hl] at hs
  obtain ⟨-, -, -, -, hpt, -⟩ := hs
  exact hpt

/-- The calls beside the words keep the order: INIT's six are the first of the trace, no other instruction has any. -/
theorem pinOrderOk_configCalls {i : Instr} {s : State} (hs : s.lifecycleOk) (hl : s.lc = neededLifecycle i) :
    pinOrderOk (levelsAfter State.reset.lines s.pt) (configCalls i) = true := by
  cases i with
  | init din clk load sl it => rw [pt_eq_nil_of_lifecycleOk hs hl]; rfl
  | _ => rfl

/-- A completed command keeps the pin order: its words keep it from any line levels. -/
theorem pinOrderOk_doneState {i : Instr} {s : State} (hs : s.lifecycleOk) (hl : s.lc = neededLifecycle i)
    (hpt : pinOrderOk State.reset.lines s.pt = true) :
    pinOrderOk State.reset.lines (doneState i s).pt = true := by
  rw [doneState_pt, pinOrderOk_append, pinOrderOk_append, hpt, pinOrderOk_configCalls hs hl, pinOrderOk_words]
  rfl

/-- Settles O48: a violation makes no pin call, and `pinOrderOk_doneState` is the case of completion. -/
theorem pinOrderHoldsOverTheWholeTrace : Obligations.PinOrderHoldsOverTheWholeTrace := by
  unfold Obligations.PinOrderHoldsOverTheWholeTrace
  intro s t hs hpt h
  obtain ⟨i, -, hl, ⟨f, -, rfl⟩ | rfl⟩ := step_next_cases h
  · exact hpt
  · exact pinOrderOk_doneState hs hl hpt

end Sys2Proof.Machine

/-! ## The decode-mode register file (41_decode_mode.md) -/

namespace Sys2Proof.Machine

/-! ### The five commands in a ready block -/

/-- A query that completed with `r`. -/
theorem complete_some (r : QueryResult) (s : State) : complete (some r) s = .next (afterQuery s r) := rfl

theorem exec_bitmaskFor_ready {s : State} (hs : s.ready) (ds : List Nat) :
    exec (.bitmaskFor ds) s = .next (afterQuery s (.mask (maskOf ds))) := by
  rw [exec, execBitmaskFor, whenAllowed_run hs.2 hs.1, complete_some]

/-- BITMASK_FOR_NUM is BITMASK_FOR of the operand's decimal digits (R124). -/
theorem exec_bitmaskForNum_ready {s : State} (hs : s.ready) (n : Nat) :
    exec (.bitmaskForNum n) s = .next (afterQuery s (.mask (maskOf (decimalDigits n)))) := by
  rw [exec, execBitmaskForNum, whenAllowed_run hs.2 hs.1, complete_some, compositeDigits_eq]

theorem exec_isBcd_legal {s : State} (hs : s.ready) {d : Nat} (hd : d ≤ 7) :
    exec (.isBcd d) s = .next (afterQuery s (.bcd (dmBit s.dm d))) := by
  rw [exec, execIsBcd, whenAllowed_run hs.2 hs.1, if_neg (Nat.not_lt.mpr hd), complete_some]

theorem exec_isBcd_illegal {s : State} (hs : s.ready) {d : Nat} (hd : 7 < d) :
    exec (.isBcd d) s = .next (afterViolation s .digitIndexRange 0x03 d) := by
  rw [exec, execIsBcd, whenAllowed_run hs.2 hs.1, if_pos hd]
  rfl

theorem exec_setBcd_ready {s : State} (hs : s.ready) (m : Byte) :
    exec (.setBcd m) s = .next (afterWords s [regWord 0x09 (s.dm ||| m)] (s.dm ||| m)) := by
  rw [exec, execSetBcd, whenAllowed_run hs.2 hs.1, setBcd_eq, complete_withWords]

theorem exec_setRaw_ready {s : State} (hs : s.ready) (m : Byte) :
    exec (.setRaw m) s = .next (afterWords s [regWord 0x09 (s.dm &&& ~~~m)] (s.dm &&& ~~~m)) := by
  rw [exec, execSetRaw, whenAllowed_run hs.2 hs.1, setRaw_eq, complete_withWords]

/-! ### The masks built for the host (R120, R124) -/

/-- Settles O6: the mask is `maskOf ds`, whose bits are the listed indexes. -/
theorem bitmaskForSetsTheListedBits : Obligations.BitmaskForSetsTheListedBits := by
  unfold Obligations.BitmaskForSetsTheListedBits
  intro s ds hs
  exact ⟨maskOf ds, exec_bitmaskFor_ready hs ds, dmBit_maskOf ds⟩

/-- The digits of 0 are the one digit 0 (decision D19). -/
theorem decide_mem_decimalDigits (n j : Nat) :
    decide (j ∈ decimalDigits n) = if n = 0 then decide (j = 0) else decide (j ∈ Nat.digits 10 n) := by
  unfold decimalDigits
  split
  · exact decide_eq_decide.mpr List.mem_singleton
  · rfl

/-- Settles O7: the mask of the decimal digits, with 0 apart. -/
theorem bitmaskForNumSetsTheDigitsBits : Obligations.BitmaskForNumSetsTheDigitsBits := by
  unfold Obligations.BitmaskForNumSetsTheDigitsBits
  intro s n hs
  refine ⟨maskOf (decimalDigits n), exec_bitmaskForNum_ready hs n, fun j hj => ?_⟩
  exact (dmBit_maskOf _ j hj).trans (decide_mem_decimalDigits n j)

/-! ### One command on the register (R121 to R123) -/

/-- Settles O8: the two branches of R121. -/
theorem isBcdReadsOneBitOrFaults : Obligations.IsBcdReadsOneBitOrFaults := by
  unfold Obligations.IsBcdReadsOneBitOrFaults
  intro s d hs
  exact ⟨exec_isBcd_legal hs, exec_isBcd_illegal hs⟩

/-- Settles O9: both commands write the register and send it as one DECODE_MODE word. -/
theorem setBcdAndSetRawWriteAndSendTheRegister : Obligations.SetBcdAndSetRawWriteAndSendTheRegister := by
  unfold Obligations.SetBcdAndSetRawWriteAndSendTheRegister
  intro s m hs
  exact ⟨exec_setBcd_ready hs m, exec_setRaw_ready hs m⟩

/-! ### The round trip (R126) -/

/-- A completed command that sent words leaves the block ready. -/
theorem afterWords_ready {s : State} (hs : s.ready) (ws : List Word) (dm : Byte) : (afterWords s ws dm).ready := hs

/-- IS_BCD of a legal index, right after a command that left `DM = dm`. -/
theorem exec_isBcd_afterWords {s : State} (hs : s.ready) (ws : List Word) (dm : Byte) {d : Nat} (hd : d < 8) :
    exec (.isBcd d) (afterWords s ws dm) = .next (afterQuery (afterWords s ws dm) (.bcd (dmBit dm d))) :=
  exec_isBcd_legal (afterWords_ready hs ws dm) (Nat.le_of_lt_succ hd)

/-- Where the mask has a 1 the register's bit is set, elsewhere it is kept. -/
theorem dmBit_or_eq_ite (dm m : Byte) (d : Nat) :
    dmBit (dm ||| m) d = if m.getLsbD d then true else dm.getLsbD d := by
  rw [dmBit_or]
  cases hm : m.getLsbD d <;> simp [dmBit, hm]

/-- Where the mask has a 1 the register's bit is cleared, elsewhere it is kept. -/
theorem dmBit_and_not_eq_ite (dm m : Byte) {d : Nat} (hd : d < 8) :
    dmBit (dm &&& ~~~m) d = if m.getLsbD d then false else dm.getLsbD d := by
  rw [dmBit_and_not _ _ _ hd]
  cases hm : m.getLsbD d <;> simp [dmBit, hm]

/-- Settles O10: IS_BCD reads the register the command before it wrote, and the mask decides each of its bits. -/
theorem setThenIsBcdRoundTrip : Obligations.SetThenIsBcdRoundTrip := by
  unfold Obligations.SetThenIsBcdRoundTrip
  intro s m d hs hd
  refine ⟨_, _, exec_setBcd_ready hs m, exec_setRaw_ready hs m, ?_, ?_⟩
  · rw [exec_isBcd_afterWords hs _ _ hd, dmBit_or_eq_ite]
  · rw [exec_isBcd_afterWords hs _ _ hd, dmBit_and_not_eq_ite _ _ hd]

end Sys2Proof.Machine

/-! ## The digit encoder (42_digit_encoder.md) -/

namespace Sys2Proof.Machine

/-! ### SEND_DIGIT at a legal position (R140, R141) -/

/-- `bcdCapable` as R125's bound. -/
theorem bcdCapable_iff (v : Byte) : bcdCapable v = true ↔ v.toNat ≤ 15 := decide_eq_true_iff

/-- SEND_DIGIT's whole effect at a legal position: its words, and the register they leave. -/
theorem exec_sendDigit_legal {s : State} (hs : s.ready) {pos : Nat} (h1 : 1 ≤ pos) (h8 : pos ≤ 8) (v : Byte)
    (dot : Bool) :
    exec (.sendDigit pos v dot) s =
      .next (afterWords s (emitted s (.sendDigit pos v dot)) (dmAfter s (.sendDigit pos v dot))) := by
  have hp : ¬ (pos < 1 ∨ pos > 8) := by omega
  rw [exec_sendDigit_ready hs, sendDigitChecked_legal hp, sendDigit_eq_withWords, complete_withWords]

/-- The digit's mode is already the value's class: the digit word alone, and `DM` is kept. -/
theorem exec_sendDigit_sameMode {s : State} (hs : s.ready) {pos : Nat} (h1 : 1 ≤ pos) (h8 : pos ≤ 8) {v : Byte}
    (dot : Bool) (hd : dmBit s.dm (pos - 1) = bcdCapable v) :
    exec (.sendDigit pos v dot) s = .next (afterWords s [regWord (BitVec.ofNat 8 pos) (digitData v dot)] s.dm) := by
  rw [exec_sendDigit_legal hs h1 h8, emitted_sendDigit, if_pos hd, dmAfter_sendDigit_of_dmBit_eq dot hd,
    List.nil_append]

/-- The digit's mode is the other one: the whole switched register goes first. -/
theorem exec_sendDigit_otherMode {s : State} (hs : s.ready) {pos : Nat} (h1 : 1 ≤ pos) (h8 : pos ≤ 8) {v : Byte}
    (dot : Bool) (hd : dmBit s.dm (pos - 1) ≠ bcdCapable v) :
    exec (.sendDigit pos v dot) s =
      .next (afterWords s
        [regWord 0x09 (dmAfter s (.sendDigit pos v dot)), regWord (BitVec.ofNat 8 pos) (digitData v dot)]
        (dmAfter s (.sendDigit pos v dot))) := by
  rw [exec_sendDigit_legal hs h1 h8, emitted_sendDigit, if_neg hd, List.singleton_append]

/-- Settles O11: a BCD-capable value wants mode 1, so the stored bit decides whether the digit is switched. -/
theorem sendDigitOfABcdValue : Obligations.SendDigitOfABcdValue := by
  unfold Obligations.SendDigitOfABcdValue
  intro s pos v dot hs h1 h8 hv
  have hbcd : bcdCapable v = true := (bcdCapable_iff v).mpr hv
  have hdata : digitData v dot = v ||| (if dot then 0x80#8 else 0x00#8) := if_pos hbcd
  have hdm : dmAfter s (.sendDigit pos v dot) = s.dm ||| digitBit (pos - 1) := if_pos hbcd
  rw [← hdata]
  split
  · rename_i hd
    exact exec_sendDigit_sameMode hs h1 h8 dot (hd.trans hbcd.symm)
  · rename_i hd
    rw [exec_sendDigit_otherMode hs h1 h8 dot (fun h => hd (h.trans hbcd)), hdm]
    rfl

/-- Settles O12: any other value wants mode 0, and its data byte is the value itself. -/
theorem sendDigitOfARawValue : Obligations.SendDigitOfARawValue := by
  unfold Obligations.SendDigitOfARawValue
  intro s pos v dot hs h1 h8 hv
  have hraw : ¬ bcdCapable v = true := fun h => Nat.not_le.mpr hv ((bcdCapable_iff v).mp h)
  have hdata : digitData v dot = v := if_neg hraw
  have hdm : dmAfter s (.sendDigit pos v dot) = s.dm &&& ~~~digitBit (pos - 1) := if_neg hraw
  split
  · rename_i hd
    rw [exec_sendDigit_otherMode hs h1 h8 dot (fun h => hraw (h.symm.trans hd)), hdm, hdata]
    rfl
  · rename_i hd
    have hmode : dmBit s.dm (pos - 1) = bcdCapable v :=
      (eq_false_of_ne_true hd).trans (eq_false_of_ne_true hraw).symm
    rw [exec_sendDigit_sameMode hs h1 h8 dot hmode, hdata]
    rfl

/-! ### An illegal position (R140, R143, R221) -/

theorem exec_sendDigit_illegal {s : State} (hs : s.ready) {pos : Nat} (hp : pos = 0 ∨ 8 < pos) (v : Byte)
    (dot : Bool) : exec (.sendDigit pos v dot) s = .next (afterViolation s .positionRange 0x06 pos) := by
  rw [exec_sendDigit_ready hs, sendDigitChecked_illegal (hp.imp_left Nat.lt_one_iff.mpr)]
  rfl

theorem exec_sendChar_illegal {s : State} (hs : s.ready) {pos : Nat} (hp : pos = 0 ∨ 8 < pos) (g : Glyph)
    (dot : Bool) : exec (.sendChar pos g dot) s = .next (afterViolation s .positionRange 0x07 pos) := by
  rw [exec_sendChar_ready hs, sendDigitChecked_illegal (hp.imp_left Nat.lt_one_iff.mpr)]
  rfl

/-- Settles O13: the position check comes before any effect, and each command records its own opcode. -/
theorem illegalPositionFaultsBeforeAnyEffect : Obligations.IllegalPositionFaultsBeforeAnyEffect := by
  unfold Obligations.IllegalPositionFaultsBeforeAnyEffect
  intro s pos v g dot hs hp
  exact ⟨exec_sendDigit_illegal hs hp v dot, exec_sendChar_illegal hs hp g dot⟩

/-! ### SEND_CHAR (R143) -/

/-- At a legal position SEND_CHAR is SEND_DIGIT of the glyph's code, in any state, refusals included. -/
theorem exec_sendChar_eq_sendDigit {pos : Nat} (h1 : 1 ≤ pos) (h8 : pos ≤ 8) (g : Glyph) (dot : Bool) (s : State) :
    exec (.sendChar pos g dot) s = exec (.sendDigit pos (glyphCode g) dot) s := by
  have hp : ¬ (pos < 1 ∨ pos > 8) := by omega
  simp only [exec, execSendChar, execSendDigit, sendDigitChecked_legal hp]

/-- R64's row of SEND_CHAR, with the opcode byte written out. -/
theorem encode_sendChar (pos : Nat) (g : Glyph) (dot : Bool) :
    encode (.sendChar pos g dot) = .command 0x07 [.natural pos, .glyph g, .boolean dot] := rfl

/-- The decoder fills in SEND_CHAR's omitted dot as false (R69; log entry 9). -/
theorem decode_sendChar_omitted_dot (cfg : Config) (pos : Nat) (g : Glyph) :
    decode cfg (.command 0x07 [.natural pos, .glyph g]) = decode cfg (encode (.sendChar pos g false)) := rfl

/-- Settles O14: every glyph code is BCD-capable, so a legal position is O11's case; an illegal one is O13's. -/
theorem sendCharIsSendDigitOfTheGlyphCode : Obligations.SendCharIsSendDigitOfTheGlyphCode := by
  unfold Obligations.SendCharIsSendDigitOfTheGlyphCode
  intro s pos g dot code
  have hcode : code = glyphCode g := by cases g <;> rfl
  have hbcd : code.toNat ≤ 15 := hcode ▸ (bcdCapable_iff _).mp (bcdCapable_glyphCode g)
  have hdigit : 1 ≤ pos → pos ≤ 8 → exec (.sendChar pos g dot) s = exec (.sendDigit pos code dot) s := fun h1 h8 =>
    hcode ▸ exec_sendChar_eq_sendDigit h1 h8 g dot s
  refine ⟨hdigit, fun hs h1 h8 => ?_, fun hs hp => exec_sendChar_illegal hs hp g dot,
    fun hf => exec_faulted (.sendChar pos g dot) hf, fun hf hl => exec_lifecycle hf hl, ?_, ?_⟩
  · rw [hdigit h1 h8]
    exact sendDigitOfABcdValue s pos code dot hs h1 h8 hbcd
  · rw [← encode_sendChar]
    exact decode_encode rfl
  · rw [decode_sendChar_omitted_dot]
    exact decode_encode rfl

/-! ### CLEAR and FILL_ZEROS (R144, R145, R146) -/

theorem exec_clear_ready {s : State} (hs : s.ready) :
    exec .clear s = .next (afterWords s (bcdWords s.dm (sameEverywhere 0x0F)) 0xFF) := by
  rw [exec, execClear, whenAllowed_run hs.2 hs.1, clearDisplay_eq, complete_withWords]

theorem exec_fillZeros_ready {s : State} (hs : s.ready) :
    exec .fillZeros s = .next (afterWords s (bcdWords s.dm (sameEverywhere 0x00)) 0xFF) := by
  have hzero : bcdCapable 0x00 = true := (bcdCapable_iff 0x00).mpr (Nat.zero_le 15)
  rw [exec, execFillZeros, whenAllowed_run hs.2 hs.1, sendCalls_allPositions hzero, complete_withWords]

/-- With every digit in BCD mode no mode word is sent: one digit word an entry (R146). -/
theorem bcdWords_of_all_bcd {es : List DigitEntry} (hpos : ∀ e ∈ es, e.1 ≤ 8) :
    bcdWords 0xFF es = es.map fun e => regWord (BitVec.ofNat 8 e.1) e.2 := by
  induction es with
  | nil => rfl
  | cons e es ih =>
    have he : e.1 ≤ 8 := hpos e List.mem_cons_self
    have hbit : dmBit 0xFF (e.1 - 1) = true := by
      have hall : ∀ d < 8, dmBit 0xFF d = true := by decide
      exact hall _ (by omega)
    rw [bcdWords, or_digitBit_self hbit, if_pos hbit, ih fun e' he' => hpos e' (List.mem_cons_of_mem _ he')]
    rfl

/-- The eight words of one data byte everywhere, every digit being in BCD mode. -/
theorem bcdWords_sameEverywhere_of_all_bcd (data : Byte) :
    bcdWords 0xFF (sameEverywhere data) = (sameEverywhere data).map fun e => regWord (BitVec.ofNat 8 e.1) e.2 :=
  bcdWords_of_all_bcd (by simp [sameEverywhere])

/-- Settles O15: the streams of `sendCalls_allPositions`, and their eight words where no digit is raw. -/
theorem clearAndFillZerosWriteEveryPosition : Obligations.ClearAndFillZerosWriteEveryPosition := by
  unfold Obligations.ClearAndFillZerosWriteEveryPosition
  intro s hs
  refine ⟨exec_clear_ready hs, exec_fillZeros_ready hs, fun hdm => ⟨?_, ?_⟩⟩
  · rw [exec_clear_ready hs, hdm, bcdWords_sameEverywhere_of_all_bcd]
    rfl
  · rw [exec_fillZeros_ready hs, hdm, bcdWords_sameEverywhere_of_all_bcd]
    rfl

end Sys2Proof.Machine

/-! ## The number encoder (43_number_encoder.md) -/

namespace Sys2Proof.Machine

/-! ### The two commands in a ready block (R160, R162) -/

/-- SEND_NUMBER_INT's whole effect: R161's stream of BCD digits. -/
theorem exec_sendNumberInt_ready {s : State} (hs : s.ready) (n : Int) :
    exec (.sendNumberInt n) s =
      .next (afterWords s (bcdWords s.dm (intEntries n)) (bcdMask s.dm (intEntries n))) := by
  rw [exec, execSendNumberInt, whenAllowed_run hs.2 hs.1,
    sendCalls_entries (intCalls_ne_nil n) (fun _ => intCalls_bcd) (intCalls_map_entry n), complete_withWords]

/-- NaN and the infinities are the patterns whose exponent field is all ones. -/
theorem f64NonFinite_iff (x : BitVec 64) : f64NonFinite x = true ↔ (x.extractLsb' 52 11).toNat = 2047 := beq_iff_eq

/-- SEND_NUMBER_DEC's whole effect for a finite operand: R165's stream of BCD digits. -/
theorem exec_sendNumberDec_finite {s : State} (hs : s.ready) {x : BitVec 64}
    (hx : (x.extractLsb' 52 11).toNat ≠ 2047) (p : Nat) :
    exec (.sendNumberDec x p) s =
      .next (afterWords s (bcdWords s.dm (decEntries s.cfg.fracPad p (splitDecimal s.cfg x p)))
        (bcdMask s.dm (decEntries s.cfg.fracPad p (splitDecimal s.cfg x p)))) := by
  rw [exec, execSendNumberDec, whenAllowed_run hs.2 hs.1, if_neg (mt (f64NonFinite_iff x).mp hx),
    sendCalls_entries (decCalls_ne_nil _ _ _) (fun _ => decCalls_bcd) (decCalls_map_entry _ _ _), complete_withWords]

theorem exec_sendNumberDec_nonfinite {s : State} (hs : s.ready) {x : BitVec 64}
    (hx : (x.extractLsb' 52 11).toNat = 2047) (p : Nat) :
    exec (.sendNumberDec x p) s = .next (afterViolation s .nonfiniteOperand 0x09 x.toNat) := by
  rw [exec, execSendNumberDec, whenAllowed_run hs.2 hs.1, if_pos ((f64NonFinite_iff x).mpr hx)]
  rfl

/-- Settles O16: the loop's calls are R161's entries. -/
theorem sendNumberIntSendsTheDecimalDigits : Obligations.SendNumberIntSendsTheDecimalDigits := by
  unfold Obligations.SendNumberIntSendsTheDecimalDigits
  intro s n hs
  exact exec_sendNumberInt_ready hs n

/-- Settles O17: the loops' calls are R165's entries, whatever the split gives. -/
theorem sendNumberDecSendsFractionThenInteger : Obligations.SendNumberDecSendsFractionThenInteger := by
  unfold Obligations.SendNumberDecSendsFractionThenInteger
  intro s x p hs hx
  exact exec_sendNumberDec_finite hs hx p

/-- Settles O18: the class check comes before any effect. -/
theorem nonfiniteOperandFaults : Obligations.NonfiniteOperandFaults := by
  unfold Obligations.NonfiniteOperandFaults
  intro s x p hs hx
  exact exec_sendNumberDec_nonfinite hs hx p

/-! ### The decimal point (R165 (2)) -/

/-- Of the words of SEND_NUMBER_DEC's entries the dotted one is that of the dotted entry. -/
theorem filter_dot_map_entryWord (es : List DigitEntry) :
    (es.map entryWord).filter (fun w => w.getLsbD 7) = (es.filter fun e => e.2.getLsbD 7).map entryWord := by
  have hdot : (fun w : Word => w.getLsbD 7) ∘ entryWord = fun e => e.2.getLsbD 7 := by
    funext e
    exact getLsbD_regWord _ _ 7
  rw [List.filter_map, hdot]

/-- Words to ascending positions have ascending addresses. -/
theorem pairwise_wordAddr_map_entryWord {es : List DigitEntry} (hpos : ∀ e ∈ es, 1 ≤ e.1 ∧ e.1 ≤ 8)
    (hasc : es.Pairwise fun a b => a.1 < b.1) :
    (es.map entryWord).Pairwise fun v w => (wordAddr v).toNat < (wordAddr w).toNat := by
  refine List.pairwise_map.mpr (hasc.imp_of_mem fun ha hb hlt => ?_)
  rwa [wordAddr_entryWord (hpos _ ha).2, wordAddr_entryWord (hpos _ hb).2]

/-- A word of a BCD stream at positions 1 to 8 that is no digit word is a DECODE_MODE word. -/
theorem wordAddr_of_not_digitWord {dm : Byte} {es : List DigitEntry} (hpos : ∀ e ∈ es, 1 ≤ e.1 ∧ e.1 ≤ 8)
    {w : Word} (hw : w ∈ bcdWords dm es) (hd : w ∉ (bcdWords dm es).filter isDigitWord) : wordAddr w = 0x09 := by
  obtain ⟨m, rfl⟩ | ⟨e, he, rfl⟩ := mem_bcdWords hw
  · exact wordAddr_regWord _ _
  · rw [filter_isDigitWord_bcdWords dm es hpos] at hd
    exact absurd (List.mem_map_of_mem he) hd

/-- Settles O23: the digit words are the entries' words, whose positions ascend and one of which has the dot. -/
theorem decimalPointStandsOnceAtPPlusOne : Obligations.DecimalPointStandsOnceAtPPlusOne := by
  unfold Obligations.DecimalPointStandsOnceAtPPlusOne
  intro s x p hs hx
  refine ⟨_, _, exec_sendNumberDec_finite hs hx p, afterWords_wt _ _ _, ?_⟩
  generalize hes : decEntries s.cfg.fracPad p (splitDecimal s.cfg x p) = es
  have hpos : ∀ e ∈ es, 1 ≤ e.1 ∧ e.1 ≤ 8 := fun e he => decEntries_positions (hes ▸ he)
  have hdigit := filter_isDigitWord_bcdWords s.dm es hpos
  refine ⟨?_, ?_, fun w hw hd => wordAddr_of_not_digitWord hpos hw hd⟩
  · exact hdigit ▸ pairwise_wordAddr_map_entryWord hpos (hes ▸ decEntries_ascending _ _ _)
  · refine (congrArg _ hdigit).trans ?_
    rw [filter_dot_map_entryWord, ← hes, decEntries_filter_dot]
    split <;> rfl

/-! ### The exact sign, integer part and fraction part (R163) -/

/-- `|x|` is this natural over `2 ^ f64PointBits x`. -/
def f64Numerator (x : BitVec 64) : Nat := f64Significand x * 2 ^ (f64Scale x - 1075)

theorem f64Trunc_eq (x : BitVec 64) : f64Trunc x = f64Numerator x / 2 ^ f64PointBits x := rfl

theorem f64FracNumerator_eq (x : BitVec 64) : f64FracNumerator x = f64Numerator x % 2 ^ f64PointBits x := rfl

/-- `|x|` by the binary64 layout, with a subnormal's form apart (log entry 14). -/
def f64Magnitude (x : BitVec 64) : ℚ :=
  if f64Exponent x = 0 then (f64Fraction x : ℚ) * (2 : ℚ) ^ (-1074 : ℤ)
  else ((2 : ℚ) ^ (52 : ℤ) + f64Fraction x) * (2 : ℚ) ^ ((f64Exponent x : ℤ) - 1075)

/-- A subnormal reads as the significand without hidden bit at the least exponent: both forms are one. -/
theorem f64Magnitude_eq_significand (x : BitVec 64) :
    f64Magnitude x = f64Significand x * (2 : ℚ) ^ ((f64Scale x : ℤ) - 1075) := by
  unfold f64Magnitude f64Significand f64Scale
  split
  · rename_i he
    rw [he]
    norm_num
  · rename_i he
    rw [max_eq_left (Nat.one_le_iff_ne_zero.mpr he)]
    push_cast
    rfl

/-- A power of 2 with a difference as its exponent, as a fraction one of whose sides is 1. -/
theorem two_zpow_sub (a b : Nat) : (2 : ℚ) ^ ((a : ℤ) - b) = 2 ^ (a - b) / 2 ^ (b - a) := by
  rw [zpow_sub₀ two_ne_zero, zpow_natCast, zpow_natCast, div_eq_div_iff (by positivity) (by positivity), ← pow_add,
    ← pow_add]
  congr 1
  omega

theorem f64Magnitude_eq_div (x : BitVec 64) : f64Magnitude x = f64Numerator x / 2 ^ f64PointBits x := by
  have hpow : (2 : ℚ) ^ ((f64Scale x : ℤ) - 1075) = 2 ^ (f64Scale x - 1075) / 2 ^ f64PointBits x :=
    two_zpow_sub (f64Scale x) 1075
  rw [f64Magnitude_eq_significand, hpow, f64Numerator]
  push_cast
  ring

theorem floor_f64Magnitude (x : BitVec 64) : ⌊f64Magnitude x⌋₊ = f64Trunc x := by
  have h := Nat.floor_div_eq_div (K := ℚ) (f64Numerator x) (2 ^ f64PointBits x)
  rw [f64Magnitude_eq_div, f64Trunc_eq, ← h]
  push_cast
  rfl

theorem f64FracNumerator_div (x : BitVec 64) :
    (f64FracNumerator x : ℚ) / 2 ^ f64PointBits x = f64Magnitude x - f64Trunc x := by
  have hsplit : (2 : ℚ) ^ f64PointBits x * f64Trunc x + f64FracNumerator x = f64Numerator x := by
    exact_mod_cast Nat.div_add_mod (f64Numerator x) (2 ^ f64PointBits x)
  rw [f64Magnitude_eq_div, ← hsplit]
  field_simp
  ring

theorem f64Significand_eq_zero_iff (x : BitVec 64) :
    f64Significand x = 0 ↔ f64Exponent x = 0 ∧ f64Fraction x = 0 := by
  unfold f64Significand
  split <;> simp [*]

theorem f64Magnitude_eq_zero_iff (x : BitVec 64) : f64Magnitude x = 0 ↔ f64Exponent x = 0 ∧ f64Fraction x = 0 := by
  rw [f64Magnitude_eq_significand, mul_eq_zero_iff_right (zpow_ne_zero _ two_ne_zero), Nat.cast_eq_zero,
    f64Significand_eq_zero_iff]

/-- `x < 0` is the sign bit of a nonzero magnitude: −0.0 is not negative (decision D16). -/
theorem f64Negative_iff (x : BitVec 64) : f64Negative x = true ↔ x.getLsbD 63 = true ∧ f64Magnitude x ≠ 0 := by
  rw [Ne, f64Magnitude_eq_zero_iff, not_and_or]
  simp [f64Negative, f64Sign]

/-- Settles O19: `|x|` is `f64Numerator x` over a power of 2, which quotient and remainder split exactly. -/
theorem splitHasExactSignAndIntegerPart : Obligations.SplitHasExactSignAndIntegerPart := by
  unfold Obligations.SplitHasExactSignAndIntegerPart
  intro cfg x p _
  exact ⟨f64Negative_iff x, (floor_f64Magnitude x).symm, f64FracNumerator_div x⟩

/-! ### The configured split (R163) -/

/-- `SPLIT64`'s one rounded multiply, where `10 ^ p` is an exact binary64 value. -/
theorem splitDecimal_fp_split64 {cfg : Config} (hsplit : cfg.split = .split64) (x : BitVec 64) {p : Nat}
    (hp : p ≤ 22) :
    (splitDecimal cfg x p).fp = rne64 (f64FracNumerator x * 10 ^ p) / 2 ^ f64PointBits x := by
  simp only [splitDecimal, fractionValue, hsplit, if_pos hp, split64Fraction]

/-- Settles O20: the three branches of the fraction value. -/
theorem splitFractionFollowsTheConfiguredSplit : Obligations.SplitFractionFollowsTheConfiguredSplit := by
  unfold Obligations.SplitFractionFollowsTheConfiguredSplit
  intro cfg x p
  refine ⟨fun hsplit hp => splitDecimal_fp_split64 hsplit x hp, fun hsplit hp => ?_, fun hsplit => ?_⟩
  · simp only [splitDecimal, fractionValue, hsplit, if_neg (Nat.not_le.mpr hp)]
  · simp only [splitDecimal, fractionValue, hsplit]

/-! ### Rounding (R163's RNE64) -/

/-- One rounded shift is at most half a unit off, and even on a tie. -/
theorem roundShift_nearest_even (n b : Nat) :
    2 * (((roundShift n b * 2 ^ b : Nat) : ℤ) - n).natAbs ≤ 2 ^ b ∧
      (2 * (((roundShift n b * 2 ^ b : Nat) : ℤ) - n).natAbs = 2 ^ b → roundShift n b % 2 = 0) := by
  have hn : n / 2 ^ b * 2 ^ b + n % 2 ^ b = n := Nat.div_add_mod' n (2 ^ b)
  have hr : n % 2 ^ b < 2 ^ b := Nat.mod_lt n (Nat.two_pow_pos b)
  simp only [roundShift]
  split
  · rw [Nat.add_one_mul (n / 2 ^ b)]
    omega
  · omega

theorem roundShift_le_succ (n b : Nat) : roundShift n b ≤ n / 2 ^ b + 1 := by
  simp only [roundShift]
  split <;> omega

theorem lt_two_pow_bitLength (n : Nat) : n < 2 ^ bitLength n := by
  unfold bitLength
  split
  · simp [*]
  · exact Nat.lt_log2_self

theorem two_pow_bitLength_pred_le {n : Nat} (hn : n ≠ 0) : 2 ^ (bitLength n - 1) ≤ n := by
  rw [bitLength, if_neg hn]
  exact Nat.log2_self_le hn

/-- How many low bits `rne64` rounds away. -/
def rneDrop (n : Nat) : Nat := bitLength n - 53

theorem rne64_eq (n : Nat) : rne64 n = roundShift n (rneDrop n) * 2 ^ rneDrop n := rfl

theorem lt_two_pow_rneDrop (n : Nat) : n < 2 ^ (53 + rneDrop n) :=
  (lt_two_pow_bitLength n).trans_le (Nat.pow_le_pow_right two_pos (by unfold rneDrop; omega))

theorem two_pow_rneDrop_le {n : Nat} (hd : 0 < rneDrop n) : 2 ^ (52 + rneDrop n) ≤ n := by
  have hlen : 52 + rneDrop n = bitLength n - 1 := by unfold rneDrop at *; omega
  have hn : n ≠ 0 := by rintro rfl; exact absurd hd (by decide)
  rw [hlen]
  exact two_pow_bitLength_pred_le hn

theorem rneDrop_eq_zero {n : Nat} (hn : n < 2 ^ 53) : rneDrop n = 0 := by
  by_contra hd
  have hle : 2 ^ 53 ≤ 2 ^ (52 + rneDrop n) := Nat.pow_le_pow_right two_pos (by omega)
  exact absurd (hle.trans (two_pow_rneDrop_le (Nat.pos_of_ne_zero hd))) (Nat.not_le.mpr hn)

/-- The significand after rounding: `2 ^ 53` itself is the carry into the next binade. -/
theorem roundShift_rneDrop_le (n : Nat) : roundShift n (rneDrop n) ≤ 2 ^ 53 := by
  have hn : n < 2 ^ rneDrop n * 2 ^ 53 := by
    rw [← pow_add, Nat.add_comm]
    exact lt_two_pow_rneDrop n
  have hq : n / 2 ^ rneDrop n < 2 ^ 53 := Nat.div_lt_of_lt_mul hn
  exact (roundShift_le_succ _ _).trans hq

/-- At most 53 bits are not rounded. -/
theorem rne64_of_lt {n : Nat} (hn : n < 2 ^ 53) : rne64 n = n := by
  rw [rne64_eq, rneDrop_eq_zero hn, pow_zero, Nat.mul_one]
  simp [roundShift, Nat.mod_one]

/-- Settles O21: the rounded shift by `rneDrop n`, which leaves exactly 53 bits of a longer `n`. -/
theorem roundingIsToNearestEven : Obligations.RoundingIsToNearestEven := by
  unfold Obligations.RoundingIsToNearestEven
  intro n
  obtain ⟨hnear, heven⟩ := roundShift_nearest_even n (rneDrop n)
  exact ⟨roundShift n (rneDrop n), rneDrop n, rne64_eq n, roundShift_rneDrop_le n, hnear, heven,
    fun hd => ⟨two_pow_rneDrop_le hd, lt_two_pow_rneDrop n⟩, rne64_of_lt⟩

/-! ### The size of the fraction value (R165 (5)) -/

/-- Rounding never reaches a bound `m` that lies a relative `2 ^ -53` above: half a unit of `n` is less than that. -/
theorem rne64_lt_of_gap {n m : Nat} (hlt : n < m) (hgap : m ≤ 2 ^ 53 * (m - n)) : rne64 n < m := by
  obtain ⟨hnear, -⟩ := roundShift_nearest_even n (rneDrop n)
  rw [← rne64_eq] at hnear
  by_cases hd : rneDrop n = 0
  · rw [hd, pow_zero] at hnear
    omega
  · have hn : 2 ^ (52 + rneDrop n) ≤ n := two_pow_rneDrop_le (Nat.pos_of_ne_zero hd)
    rw [pow_add] at hn
    omega

theorem f64Significand_lt (x : BitVec 64) : f64Significand x < 2 ^ 53 := by
  have hf : f64Fraction x < 2 ^ 52 := (x.extractLsb' 0 52).isLt
  unfold f64Significand
  split <;> omega

/-- The fraction numerator is some of the significand's low bits. -/
theorem f64FracNumerator_lt (x : BitVec 64) : f64FracNumerator x < 2 ^ 53 := by
  rw [f64FracNumerator_eq]
  by_cases hs : f64Scale x ≤ 1075
  · rw [f64Numerator, Nat.sub_eq_zero_of_le hs, pow_zero, Nat.mul_one]
    exact (Nat.mod_le _ _).trans_lt (f64Significand_lt x)
  · have hk : f64PointBits x = 0 := by unfold f64PointBits; omega
    rw [hk, pow_zero, Nat.mod_one]
    exact Nat.two_pow_pos 53

/-- A natural below `a` and below `b` leaves a gap to `a` of at least a part `1 / b` of it. -/
theorem le_mul_gap {n a b : Nat} (ha : n < a) (hb : n < b) : a ≤ b * (a - n) := by
  calc a = n + (a - n) := (Nat.add_sub_of_le ha.le).symm
    _ ≤ n * (a - n) + (a - n) := Nat.add_le_add_right (Nat.le_mul_of_pos_right n (Nat.sub_pos_of_lt ha)) _
    _ = (n + 1) * (a - n) := (Nat.succ_mul n (a - n)).symm
    _ ≤ b * (a - n) := Nat.mul_le_mul_right _ hb

/-- One rounded multiply of a fraction below 1 by `10 ^ p` stays below `10 ^ p`. -/
theorem rne64_fraction_lt (x : BitVec 64) (p : Nat) :
    rne64 (f64FracNumerator x * 10 ^ p) < 2 ^ f64PointBits x * 10 ^ p := by
  have hlt : f64FracNumerator x < 2 ^ f64PointBits x := Nat.mod_lt _ (Nat.two_pow_pos _)
  refine rne64_lt_of_gap (Nat.mul_lt_mul_of_pos_right hlt (Nat.pow_pos (by decide))) ?_
  rw [← Nat.sub_mul, ← Nat.mul_assoc]
  exact Nat.mul_le_mul_right _ (le_mul_gap hlt (f64FracNumerator_lt x))

/-- Settles O22: the fraction value is the integer part of the rounded product, which is below `10 ^ p`. -/
theorem splitFractionHasAtMostPDigits : Obligations.SplitFractionHasAtMostPDigits := by
  unfold Obligations.SplitFractionHasAtMostPDigits
  intro cfg x p hsplit hp
  rw [splitDecimal_fp_split64 hsplit x hp]
  exact Nat.div_lt_of_lt_mul (rne64_fraction_lt x p)

end Sys2Proof.Machine

/-! ## One-word chip control (44_chip_control.md) -/

namespace Sys2Proof.Machine

/-! ### The five commands in a ready block -/

theorem exec_setIntensity_ready {s : State} (hs : s.ready) (v : Byte) :
    exec (.setIntensity v) s = .next (afterWords s [regWord 0x0A (intensityData v)] s.dm) := by
  rw [exec, execSetIntensity, whenAllowed_run hs.2 hs.1, setIntensity, complete_emitWord]

theorem exec_setScanLimit_ready {s : State} (hs : s.ready) (sl : Byte) :
    exec (.setScanLimit sl) s =
      .next (afterWords s [regWord 0x0B (scanData s.cfg.scanLimitMode sl)] s.dm) := by
  rw [exec, execSetScanLimit, whenAllowed_run hs.2 hs.1, setScanLimit, complete_emitWord]

theorem exec_setShutdown_ready {s : State} (hs : s.ready) (b : Bool) :
    exec (.setShutdown b) s = .next (afterWords s [regWord 0x0C (shutdownData b)] s.dm) := by
  rw [exec, execSetShutdown, whenAllowed_run hs.2 hs.1, setShutdown, complete_emitWord]

theorem exec_setDisplayTest_ready {s : State} (hs : s.ready) (b : Bool) :
    exec (.setDisplayTest b) s = .next (afterWords s [regWord 0x0F (displayTestData b)] s.dm) := by
  rw [exec, execSetDisplayTest, whenAllowed_run hs.2 hs.1, complete_emitWord]

theorem exec_sendNop_ready {s : State} (hs : s.ready) (d : Byte) :
    exec (.sendNop d) s = .next (afterWords s [regWord 0x00 d] s.dm) := by
  rw [exec, execSendNop, whenAllowed_run hs.2 hs.1, complete_emitWord]

/-! ### SET_INTENSITY (R180) -/

/-- Dividing the byte is dividing its value: no quotient leaves the byte. -/
theorem intensityData_eq_ofNat (v : Byte) : intensityData v = BitVec.ofNat 8 (v.toNat / 16) := by
  have hquot : v.toNat / 16 < 2 ^ 8 := (Nat.div_le_self _ _).trans_lt v.isLt
  apply BitVec.eq_of_toNat_eq
  rw [intensityData, BitVec.toNat_udiv, BitVec.toNat_ofNat, Nat.mod_eq_of_lt hquot]
  rfl

/-- R64's row of SET_INTENSITY, with the opcode byte written out. -/
theorem encode_setIntensity (v : Byte) : encode (.setIntensity v) = .command 0x0A [.u8 v] := rfl

/-- Settles O24: SET_INTENSITY is one word, R180's data byte behind R222's checks. -/
theorem setIntensitySendsTheBucket : Obligations.SetIntensitySendsTheBucket := by
  unfold Obligations.SetIntensitySendsTheBucket
  intro s v
  rw [← intensityData_eq_ofNat, ← encode_setIntensity]
  exact ⟨fun hs => exec_setIntensity_ready hs v, exec_faulted (.setIntensity v),
    exec_lifecycle (i := .setIntensity v), rfl, decode_encode rfl⟩

/-! ### SET_SCAN_LIMIT (R181) -/

theorem scanData_clamped (sl : Byte) : scanData .clamped sl = BitVec.ofNat 8 (min (max sl.toNat 1) 8 - 1) := rfl

/-- The LITERAL mode wraps: 0 sends 0xFF (decision D7). -/
theorem scanData_literal (sl : Byte) : scanData .literal sl = BitVec.ofNat 8 ((sl.toNat + 255) % 256) := by
  apply BitVec.eq_of_toNat_eq
  simp [scanData, BitVec.toNat_sub, Nat.add_comm]

/-- For the chip's own limits 1 to 8 the modes agree: nothing is clamped and nothing wraps (conflict C1). -/
theorem scanData_of_legal (mode : ScanLimitMode) {sl : Byte} (hlow : 1 ≤ sl.toNat) (hhigh : sl.toNat ≤ 8) :
    scanData mode sl = BitVec.ofNat 8 (sl.toNat - 1) := by
  cases mode with
  | clamped => rw [scanData_clamped, max_eq_left hlow, min_eq_left hhigh]
  | literal =>
    have hwrap : (sl.toNat + 255) % 256 = sl.toNat - 1 := by omega
    rw [scanData_literal, hwrap]

/-- Settles O25: the word of the configured mode, which for 1 to 8 is the same in both. -/
theorem setScanLimitInBothModes : Obligations.SetScanLimitInBothModes := by
  unfold Obligations.SetScanLimitInBothModes
  intro s sl hs
  rw [exec_setScanLimit_ready hs]
  refine ⟨fun hmode => ?_, fun hmode => ?_, fun hlow hhigh => ?_⟩
  · rw [hmode, scanData_clamped]
    rfl
  · rw [hmode, scanData_literal]
    rfl
  · rw [scanData_of_legal _ hlow hhigh]
    rfl

/-! ### SET_SHUTDOWN (R182) -/

/-- R64's row of SET_SHUTDOWN, with the opcode byte written out. -/
theorem encode_setShutdown (b : Bool) : encode (.setShutdown b) = .command 0x0C [.boolean b] := rfl

/-- Settles O26: SET_SHUTDOWN is one word, R182's inverted data byte behind R222's checks. -/
theorem setShutdownIsInverted : Obligations.SetShutdownIsInverted := by
  unfold Obligations.SetShutdownIsInverted
  intro s
  exact ⟨fun hs => exec_setShutdown_ready hs true, fun hs => exec_setShutdown_ready hs false,
    fun b => exec_faulted (.setShutdown b), fun b => exec_lifecycle (i := .setShutdown b), rfl, rfl,
    fun b => encode_setShutdown b ▸ decode_encode rfl⟩

/-! ### SET_DISPLAY_TEST and SEND_NOP (R183, R184) -/

/-- Settles O27: each command is one word, display test not inverted and the no-op's byte as given. -/
theorem displayTestAndNopSendTheirWords : Obligations.DisplayTestAndNopSendTheirWords := by
  unfold Obligations.DisplayTestAndNopSendTheirWords
  intro s d hs
  exact ⟨exec_setDisplayTest_ready hs true, exec_setDisplayTest_ready hs false, exec_sendNop_ready hs d⟩

end Sys2Proof.Machine

/-! ## The lifecycle (45_lifecycle.md) -/

namespace Sys2Proof.Machine

/-! ### INIT (R200 to R202) -/

/-- R201's twelve words: INIT sets `DM = 0xFF` before it clears, so CLEAR sends one word a position. -/
theorem emitted_init (s : State) (din clk load : PinId) (sl it : Byte) :
    emitted s (.init din clk load sl it) =
      [0x0B#8 ++ scanData s.cfg.scanLimitMode sl, 0x0A#8 ++ BitVec.ofNat 8 (it.toNat / 16), 0x09FF,
        0x010F, 0x020F, 0x030F, 0x040F, 0x050F, 0x060F, 0x070F, 0x080F, 0x0C01] := by
  rw [emitted, bcdWords_sameEverywhere_of_all_bcd, intensityData_eq_ofNat]
  rfl

/-- INIT breaks no contract, so where the lifecycle allows it, it completes. -/
theorem exec_init_uninit {s : State} (hl : s.lc = .uninit) (hf : s.fault = false) (din clk load : PinId)
    (sl it : Byte) :
    exec (.init din clk load sl it) s = .next (doneState (.init din clk load sl it) s) :=
  exec_accepted hf hl

/-- Settles O28: INIT completes with its configuration calls and `emitted_init`'s words. -/
theorem initRunsItsFixedSequence : Obligations.InitRunsItsFixedSequence := by
  unfold Obligations.InitRunsItsFixedSequence
  intro s din clk load sl it hl hf words config
  have hwords : emitted s (.init din clk load sl it) = words := emitted_init s din clk load sl it
  rw [exec_init_uninit hl hf, doneState, hwords]
  rfl

/-! ### FINI (R203) -/

/-- FINI's words: CLEAR's from the `DM` it finds, then R203's shutdown word (decision D4). -/
theorem setShutdown_true_clearDisplay_eq (s : State) :
    setShutdown true (clearDisplay s) =
      withWords s (bcdWords s.dm (sameEverywhere 0x0F) ++ [0x0C00]) 0xFF := by
  rw [clearDisplay_eq, setShutdown_eq, withWords_withWords, shutdownWord]
  rfl

/-- Settles O29: FINI is CLEAR and the shutdown word; completing, it leaves DESTROYED in place of LIVE. -/
theorem finiClearsAndShutsDown : Obligations.FiniClearsAndShutsDown := by
  unfold Obligations.FiniClearsAndShutsDown
  intro s hs
  obtain ⟨hlive, hfault⟩ := hs
  rw [exec, execFini, whenAllowed_run hfault hlive, setShutdown_true_clearDisplay_eq]
  rfl

end Sys2Proof.Machine

/-! ## Faults and refusals (60_exceptions.md) -/

namespace Sys2Proof.Machine

/-! ### The refusals, in R222's order -/

/-- Every row's opcode is below 0x13, so a byte from 0x13 up is no row's (R67 (1)). -/
theorem opcodeOf_reserved {b : Byte} (hb : 0x13 ≤ b.toNat) : opcodeOf b = none := by
  rw [Option.eq_none_iff_forall_ne_some]
  rintro o ho
  have hlt : b.toNat < 0x13 := opcodeByte_of_opcodeOf ho ▸ opcodeByte_lt o
  omega

/-- A reserved opcode is refused before its operands are looked at. -/
theorem decode_reserved (cfg : Config) {b : Byte} (hb : 0x13 ≤ b.toNat) (operands : List Operand) :
    decode cfg (.command b operands) = .error (.reservedOpcode b) := by
  rw [decode, decodeCommand, opcodeOf_reserved hb]

/-- A unit at `ci` that spells no instruction is refused by the step, in any state. -/
theorem step_eq_refused {s : State} {u : PortUnit} {e : DecodeError} (hu : fetchUnit s = some u)
    (he : decode s.cfg u = .error e) : step s = .refused (decodeRefusal e) := by
  simp only [step, hu, he]

/-- Settles O34: the unit spells nothing (`decode_reserved`), and the step refuses it without a look at the state. -/
theorem reservedOpcodesAreRefusedFirst : Obligations.ReservedOpcodesAreRefusedFirst := by
  unfold Obligations.ReservedOpcodesAreRefusedFirst
  intro s b operands hu hb
  exact step_eq_refused hu (decode_reserved s.cfg hb operands)

/-- Settles O33: an instruction is refused in any lifecycle state but the needed one, which is UNINIT for INIT alone. -/
theorem lifecycleRefusesTheRest : Obligations.LifecycleRefusesTheRest := by
  unfold Obligations.LifecycleRefusesTheRest
  intro i s hf hl
  have hneeded : s.lc ≠ neededLifecycle i := by cases i <;> exact hl
  exact exec_lifecycle hf hneeded

/-- Settles O32: every meaning checks `FAULT` first. -/
theorem faultRefusesEveryInstruction : Obligations.FaultRefusesEveryInstruction := by
  unfold Obligations.FaultRefusesEveryInstruction
  exact fun i _ hf => exec_faulted i hf

/-! ### The one exception (R220, R221) -/

/-- R221's table read backwards: the four commands that can break their contract, the operands that do, and the record. -/
theorem violation_cases {i : Instr} {f : FaultInfo} (h : violation i = some f) :
    (∃ d, 7 < d ∧ i = .isBcd d ∧ f = ⟨.digitIndexRange, 0x03, d⟩) ∨
    (∃ pos v dot, (pos < 1 ∨ 8 < pos) ∧ i = .sendDigit pos v dot ∧ f = ⟨.positionRange, 0x06, pos⟩) ∨
    (∃ pos g dot, (pos < 1 ∨ 8 < pos) ∧ i = .sendChar pos g dot ∧ f = ⟨.positionRange, 0x07, pos⟩) ∨
    (∃ x p, f64NonFinite x = true ∧ i = .sendNumberDec x p ∧ f = ⟨.nonfiniteOperand, 0x09, x.toNat⟩) := by
  cases i with
  | isBcd d =>
    obtain ⟨hd, hf⟩ := Option.ite_none_right_eq_some.mp h
    exact .inl ⟨d, hd, rfl, (Option.some.inj hf).symm⟩
  | sendDigit pos v dot =>
    obtain ⟨hpos, hf⟩ := Option.ite_none_right_eq_some.mp h
    exact .inr (.inl ⟨pos, v, dot, hpos, rfl, (Option.some.inj hf).symm⟩)
  | sendChar pos g dot =>
    obtain ⟨hpos, hf⟩ := Option.ite_none_right_eq_some.mp h
    exact .inr (.inr (.inl ⟨pos, g, dot, hpos, rfl, (Option.some.inj hf).symm⟩))
  | sendNumberDec x p =>
    obtain ⟨hx, hf⟩ := Option.ite_none_right_eq_some.mp h
    exact .inr (.inr (.inr ⟨x, p, hx, rfl, (Option.some.inj hf).symm⟩))
  | _ => cases h

/-- Settles O35: an accepted instruction finds `FAULT = 0` and completion keeps it, so the step was a violation, and
`violation_cases` names its row. -/
theorem onlyContractViolationsFault : Obligations.OnlyContractViolationsFault := by
  unfold Obligations.OnlyContractViolationsFault
  intro i s t h ht
  obtain ⟨hf, -, ⟨f, hv, rfl⟩ | ⟨-, rfl⟩⟩ := exec_next h
  · obtain ⟨d, hd, rfl, rfl⟩ | ⟨pos, v, dot, hpos, rfl, rfl⟩ | ⟨pos, g, dot, hpos, rfl, rfl⟩ | ⟨x, p, hx, rfl, rfl⟩ :=
      violation_cases hv
    · exact .inl ⟨d, hd, rfl, rfl⟩
    · exact .inr (.inl ⟨pos, v, dot, hpos, rfl, rfl⟩)
    · exact .inr (.inr (.inl ⟨pos, g, dot, hpos, rfl, rfl⟩))
    · exact .inr (.inr (.inr ⟨x, p, hx, rfl, rfl⟩))
  · rw [doneState_fault, hf] at ht
    cases ht

end Sys2Proof.Machine

/-! ## Reset and hazards (70_reset_and_hazards.md) -/

namespace Sys2Proof.Machine

/-! ### Decode-mode coherence (R245) -/

/-- A word to another register leaves the chip's decode-mode register. -/
theorem regView_mode_of_select_ne {w : Word} (hw : w.extractLsb' 8 4 ≠ 0x9#4) (ws : List Word) :
    regView (ws ++ [w]) 0x9 = regView ws 0x9 := by
  rw [regView_concat, applyWord]
  simp [hw]

/-- A register word of a named address other than DECODE_MODE's leaves the chip's decode-mode register. -/
theorem regView_mode_regWord {a d : Byte} (ws : List Word) (ha : a.extractLsb' 0 4 ≠ 0x9#4 := by decide) :
    regView (ws ++ [regWord a d]) 0x9 = regView ws 0x9 :=
  regView_mode_of_select_ne (by rwa [select_regWord]) ws

/-- A BCD stream sent while the chip holds `DM` leaves it holding the new `DM`. -/
theorem regView_mode_bcdWords {ws : List Word} {dm : Byte} {es : List DigitEntry} (hws : regView ws 0x9 = some dm)
    (hpos : ∀ e ∈ es, 1 ≤ e.1 ∧ e.1 ≤ 8) : regView (ws ++ bcdWords dm es) 0x9 = some (bcdMask dm es) := by
  rw [regView_append]
  exact bcdWords_coherent es hws hpos

/-- CLEAR's and FILL_ZEROS's streams leave every digit in BCD mode, at the chip too. -/
theorem regView_mode_sameEverywhere {ws : List Word} {dm : Byte} (hws : regView ws 0x9 = some dm) (data : Byte) :
    regView (ws ++ bcdWords dm (sameEverywhere data)) 0x9 = some 0xFF := by
  rw [regView_mode_bcdWords hws (by simp [sameEverywhere]), bcdMask_sameEverywhere]

/-- INIT sends the whole of `DM`, so it needs no coherence before it. -/
theorem coherent_doneState_init (s : State) (din clk load : PinId) (sl it : Byte) :
    (doneState (.init din clk load sl it) s).coherent := by
  have hmode : regView (s.wt ++ [regWord 0x0B (scanData s.cfg.scanLimitMode sl), regWord 0x0A (intensityData it),
      regWord 0x09 0xFF]) 0x9 = some 0xFF := by
    rw [regView_append]
    exact regView_modeWord [regWord 0x0B (scanData s.cfg.scanLimitMode sl), regWord 0x0A (intensityData it)] 0xFF
  rw [State.coherent, doneState_wt, emitted, ← List.append_assoc, ← List.append_assoc, regView_mode_regWord]
  exact regView_mode_sameEverywhere hmode 0x0F

/-- A completed instruction that does not bypass the register file keeps the chip's decode-mode register equal to `DM`:
it sends the register it writes, or a BCD stream, or words to other registers. -/
theorem coherent_doneState {i : Instr} {s : State} (hs : s.coherent) (hb : bypassesDecodeMode i = false)
    (hv : violation i = none) : (doneState i s).coherent := by
  rw [State.coherent, doneState_wt, doneState_dm]
  cases i with
  | sendWord w => exact (regView_mode_of_select_ne (beq_eq_false_iff_ne.mp hb) s.wt).trans hs
  | bitmaskFor _ | bitmaskForNum _ | isBcd _ => exact (congrArg (regView · 0x9) (List.append_nil s.wt)).trans hs
  | setBcd _ | setRaw _ => exact regView_modeWord s.wt _
  | sendDigit pos v dot =>
    obtain ⟨h1, h8⟩ := position_legal_of_no_violation hv
    exact regView_mode_sendDigit hs h1 h8 v dot
  | sendChar pos g dot =>
    obtain ⟨h1, h8⟩ := position_legal_of_no_violation hv
    exact regView_mode_bcdWords hs (by simp [h1, h8])
  | sendNumberInt n => exact regView_mode_bcdWords hs fun _ => intEntries_positions
  | sendNumberDec x p => exact regView_mode_bcdWords hs fun _ => decEntries_positions
  | clear | fillZeros => exact regView_mode_sameEverywhere hs _
  | init din clk load sl it => exact coherent_doneState_init s din clk load sl it
  | fini =>
    rw [emitted, ← List.append_assoc, regView_mode_regWord]
    exact regView_mode_sameEverywhere hs 0x0F
  | decodeMode _ => cases hb
  | _ => exact (regView_mode_regWord s.wt).trans hs

/-- Settles O51: INIT sends the whole register, a violation sends nothing and keeps `DM`, and `coherent_doneState` is the
case of completion. -/
theorem decodeModeCoherenceIsKept : Obligations.DecodeModeCoherenceIsKept := by
  unfold Obligations.DecodeModeCoherenceIsKept
  refine ⟨fun s t din clk load sl it h => ?_, fun i s t hs hb h => ?_⟩
  · obtain ⟨-, -, ⟨f, hf, -⟩ | ⟨-, rfl⟩⟩ := exec_next h
    · cases hf
    · exact coherent_doneState_init s din clk load sl it
  · obtain ⟨-, -, ⟨f, -, rfl⟩ | ⟨hv, rfl⟩⟩ := exec_next h
    · exact hs
    · exact coherent_doneState hs hb hv

/-- Settles O52: the word is a DECODE_MODE word, and SEND_WORD keeps `DM`. -/
theorem sendWordCanBreakCoherence : Obligations.SendWordCanBreakCoherence := by
  unfold Obligations.SendWordCanBreakCoherence
  intro s m hs
  refine ⟨_, (exec_sendWord_ready hs _).trans (complete_emitWord s _), afterWords_dm _ _ _, ?_⟩
  exact regView_modeWord s.wt m

/-! ### Digit residue (R46, R246) -/

/-- The register that a digit word selects has its position as address. -/
theorem select_position (pos : Nat) : (BitVec.ofNat 8 pos).extractLsb' 0 4 = BitVec.ofNat 4 pos := by
  apply BitVec.eq_of_toNat_eq
  rw [BitVec.extractLsb'_toNat, BitVec.toNat_ofNat, BitVec.toNat_ofNat, Nat.shiftRight_zero]
  omega

theorem ofNat_position_inj {pos q : Nat} (hpos : pos ≤ 8) (hq : q ≤ 8) :
    BitVec.ofNat 4 pos = BitVec.ofNat 4 q ↔ pos = q := by
  rw [BitVec.toNat_inj.symm, BitVec.toNat_ofNat, BitVec.toNat_ofNat]
  omega

/-- A digit word writes the digit register of its position and no other. -/
theorem regView_digit_digitWord {pos q : Nat} (hpos : pos ≤ 8) (hq1 : 1 ≤ q) (hq8 : q ≤ 8) (ws : List Word)
    (d : Byte) :
    regView (ws ++ [regWord (BitVec.ofNat 8 pos) d]) (BitVec.ofNat 4 q) =
      if pos = q then some d else regView ws (BitVec.ofNat 4 q) := by
  have hviewed : viewedAddress (BitVec.ofNat 4 q) = true := by interval_cases q <;> rfl
  rw [regView_concat, applyWord_regWord, select_position, hviewed]
  simp only [Bool.true_and, beq_iff_eq, ofNat_position_inj hpos hq8]

/-- A DECODE_MODE word leaves the digit registers. -/
theorem regView_digit_modeWord {q : Nat} (hq8 : q ≤ 8) (ws : List Word) (m : Byte) :
    regView (ws ++ [regWord 0x09 m]) (BitVec.ofNat 4 q) = regView ws (BitVec.ofNat 4 q) := by
  rw [regView_concat, applyWord_regWord]
  interval_cases q <;> rfl

/-- One entry of a BCD stream, with its mode word or without, writes its own digit register and no other. -/
theorem regView_digit_bcdWords_singleton {e : DigitEntry} {q : Nat} (he : e.1 ≤ 8) (hq1 : 1 ≤ q) (hq8 : q ≤ 8)
    (ws : List Word) (dm : Byte) :
    regView (ws ++ bcdWords dm [e]) (BitVec.ofNat 4 q) =
      if e.1 = q then some e.2 else regView ws (BitVec.ofNat 4 q) := by
  rw [bcdWords, bcdWords, ← List.append_assoc, regView_digit_digitWord he hq1 hq8]
  split
  · rfl
  · split
    · rw [List.append_nil]
    · rw [regView_digit_modeWord hq8]

/-- A BCD stream leaves the digit register of a position it does not write. -/
theorem regView_digit_bcdWords_of_not_mem {es : List DigitEntry} (hpos : ∀ e ∈ es, e.1 ≤ 8) {q : Nat} (hq1 : 1 ≤ q)
    (hq8 : q ≤ 8) (hq : q ∉ es.map Prod.fst) (ws : List Word) (dm : Byte) :
    regView (ws ++ bcdWords dm es) (BitVec.ofNat 4 q) = regView ws (BitVec.ofNat 4 q) := by
  induction es generalizing ws dm with
  | nil => rw [bcdWords, List.append_nil]
  | cons e es ih =>
    obtain ⟨he, hes⟩ := List.forall_mem_cons.mp hpos
    obtain ⟨hne, hnot⟩ := not_or.mp (mt List.mem_cons.mpr hq)
    rw [bcdWords_cons, ← List.append_assoc, ih hes hnot, regView_digit_bcdWords_singleton he hq1 hq8,
      if_neg (Ne.symm hne)]

/-- A BCD stream at different positions leaves every entry's byte in its digit register. -/
theorem regView_digit_bcdWords_of_mem {es : List DigitEntry} (hpos : ∀ e ∈ es, 1 ≤ e.1 ∧ e.1 ≤ 8)
    (hdistinct : (es.map Prod.fst).Nodup) {e : DigitEntry} (he : e ∈ es) (ws : List Word) (dm : Byte) :
    regView (ws ++ bcdWords dm es) (BitVec.ofNat 4 e.1) = some e.2 := by
  induction es generalizing ws dm with
  | nil => cases he
  | cons e' es ih =>
    obtain ⟨⟨h1, h8⟩, hes⟩ := List.forall_mem_cons.mp hpos
    obtain ⟨hnot, hdistinct⟩ := List.nodup_cons.mp hdistinct
    rw [bcdWords_cons, ← List.append_assoc]
    rcases List.mem_cons.mp he with rfl | he
    · rw [regView_digit_bcdWords_of_not_mem (fun e he => (hes e he).2) h1 h8 hnot,
        regView_digit_bcdWords_singleton h8 h1 h8, if_pos rfl]
    · exact ih hes hdistinct he _ _

theorem map_fst_placeDigits (pos : Nat) (ds : List Nat) :
    (placeDigits pos ds).map Prod.fst = List.range' pos ds.length := by
  induction ds generalizing pos with
  | nil => rfl
  | cons d ds ih => rw [placeDigits, List.map_cons, ih, List.length_cons, List.range'_succ]

/-- SEND_NUMBER_INT's entries stand at the positions `1..k` (R161). -/
theorem map_fst_intEntries (n : Int) : (intEntries n).map Prod.fst = List.range' 1 (intEntries n).length := by
  unfold intEntries
  generalize decimalDigits n.natAbs = ds
  simp only [List.map_append, map_fst_placeDigits, List.length_append, placeDigits_length]
  split
  · rename_i hdash
    obtain ⟨-, hlen⟩ := hdash
    rw [List.take_of_length_le hlen.le, List.length_singleton, List.range'_1_concat, Nat.add_comm 1]
    rfl
  · exact List.append_nil _

/-- Settles O53: the entries stand at the positions `1..k`, each written once, and the stream writes no other digit
register. -/
theorem numberLeavesHigherDigitsAlone : Obligations.NumberLeavesHigherDigitsAlone := by
  unfold Obligations.NumberLeavesHigherDigitsAlone
  intro s t n h
  have hpos : ∀ e ∈ intEntries n, 1 ≤ e.1 ∧ e.1 ≤ 8 := fun _ => intEntries_positions
  obtain ⟨-, -, ⟨f, hf, -⟩ | ⟨-, rfl⟩⟩ := exec_next h
  · cases hf
  · rw [doneState_wt, emitted]
    refine ⟨fun e he => ?_, fun q hq hq8 => ?_⟩
    · have hdistinct : ((intEntries n).map Prod.fst).Nodup := map_fst_intEntries n ▸ List.nodup_range'
      exact regView_digit_bcdWords_of_mem hpos hdistinct he s.wt s.dm
    · have hnot : q ∉ (intEntries n).map Prod.fst := by
        rw [map_fst_intEntries, List.mem_range'_1]
        omega
      exact regView_digit_bcdWords_of_not_mem (fun e he => (hpos e he).2) (by omega) hq8 hnot s.wt s.dm

/-! ### Bounded work (R249) -/

/-- SEND_DIGIT emits its digit word, and at most one mode word before it (R140). -/
theorem emitted_sendDigit_length (s : State) (pos : Nat) (v : Byte) (dot : Bool) :
    1 ≤ (emitted s (.sendDigit pos v dot)).length ∧ (emitted s (.sendDigit pos v dot)).length ≤ 2 := by
  rw [emitted_sendDigit]
  split <;> simp

/-- A BCD stream of `lo` to `hi` entries: one or two words an entry. -/
theorem bcdWords_length_bounds {es : List DigitEntry} {lo hi : Nat} (h : lo ≤ es.length ∧ es.length ≤ hi) (dm : Byte) :
    lo ≤ (bcdWords dm es).length ∧ (bcdWords dm es).length ≤ 2 * hi := by
  obtain ⟨hlow, hhigh⟩ := bcdWords_length dm es
  omega

/-- Every instruction emits between R249's least and most words. -/
theorem emitted_length_bounds (s : State) (i : Instr) :
    (wordBounds i).1 ≤ (emitted s i).length ∧ (emitted s i).length ≤ (wordBounds i).2 := by
  have hsame : ∀ data dm, 8 ≤ (bcdWords dm (sameEverywhere data)).length ∧
      (bcdWords dm (sameEverywhere data)).length ≤ 16 := fun _ =>
    bcdWords_length_bounds (hi := 8) ⟨le_rfl, le_rfl⟩
  cases i with
  | sendDigit pos v dot => exact emitted_sendDigit_length s pos v dot
  | sendChar pos g dot =>
    exact bcdWords_length_bounds (es := [(pos, digitData (glyphCode g) dot)]) (hi := 1) ⟨le_rfl, le_rfl⟩ s.dm
  | sendNumberInt n => exact bcdWords_length_bounds (intEntries_length n) s.dm
  | sendNumberDec x p => exact bcdWords_length_bounds (decEntries_length _ _ _) s.dm
  | clear | fillZeros => exact hsame _ s.dm
  | init din clk load sl it => exact emitted_init s din clk load sl it ▸ ⟨le_rfl, le_rfl⟩
  | fini =>
    obtain ⟨hlow, hhigh⟩ := hsame 0x0F s.dm
    rw [emitted, List.length_append]
    exact ⟨Nat.succ_le_succ hlow, Nat.succ_le_succ hhigh⟩
  | _ => exact ⟨le_rfl, le_rfl⟩

/-- Settles O45: a completed instruction appends its words and their pin calls (R102), after INIT's six. -/
theorem everyCommandDoesBoundedWork : Obligations.EveryCommandDoesBoundedWork := by
  unfold Obligations.EveryCommandDoesBoundedWork
  intro i s t h ht
  obtain ⟨-, -, ⟨f, -, rfl⟩ | ⟨-, rfl⟩⟩ := exec_next h
  · cases ht
  · obtain ⟨hlow, hhigh⟩ := emitted_length_bounds s i
    refine ⟨emitted s i, configCalls i ++ wordsPins (emitted s i), doneState_wt i s,
      (doneState_pt i s).trans (List.append_assoc _ _ _), hlow, hhigh, ?_⟩
    rw [List.length_append, wordsPins_length, Nat.add_comm]
    cases i with
    | init din clk load sl it => rfl
    | _ => rfl

/-! ### Reset (R33, R240) -/

/-- Settles O39: the fields of `State.reset`, and each line at the value that all three share. -/
theorem resetStateIsAsSpecified : Obligations.ResetStateIsAsSpecified := by
  unfold Obligations.ResetStateIsAsSpecified
  have hdir : ∀ p, lineOf State.reset.dir p = false := fun p => by cases p <;> rfl
  exact ⟨rfl, rfl, rfl, rfl, rfl, rfl, rfl, lineOf_reset_lines, hdir⟩

end Sys2Proof.Machine

/-! ## Bare register words (30_encoding.md R72 to R78) -/

namespace Sys2Proof.Machine

/-- A bare register word in a ready block sends that word and keeps `DM`, for DECODE_MODE too (R22, R245). -/
theorem sendRegisterWord_ready {s : State} (hs : s.ready) (addr data : Byte) :
    sendRegisterWord addr data s = .next (afterWords s [regWord addr data] s.dm) := by
  rw [sendRegisterWord, whenAllowed_run hs.2 hs.1, complete_emitWord]

/-- Settles O30: each row's meaning is `sendRegisterWord` at the row's own address. -/
theorem bareRegisterWordsAreSentAsGiven : Obligations.BareRegisterWordsAreSentAsGiven := by
  unfold Obligations.BareRegisterWordsAreSentAsGiven
  intro s d hs
  have hsend (addr : Byte) := sendRegisterWord_ready hs addr d
  exact ⟨hsend 0x00, hsend 0x01, hsend 0x02, hsend 0x03, hsend 0x04, hsend 0x05, hsend 0x06, hsend 0x07, hsend 0x08,
    hsend 0x09, hsend 0x0A, hsend 0x0B, hsend 0x0C, hsend 0x0F⟩

end Sys2Proof.Machine
